-- ==== Sys2Proof/Word.lean ====
section
/-! DEFINITION. The word types of the block: its host data word, the byte lane of a word, the host byte offset, and
the 9-bit node index field (00_scope.md R7, R9). -/

namespace Sys2Proof

/-- `DATA_W = 32` bits: one host access, one frequency, one weight, one command word (R7, R60, R90). -/
abbrev Word := BitVec 32

/-- One byte lane of a word (R61). -/
abbrev Byte := BitVec 8

/-- `ADDR_W = 15` bits: a byte offset in the block's host address space (R7, R60). -/
abbrev Addr := BitVec 15

/-- `IDX_W = 9` bits: a node index as a register or a link field holds it, NIL included (R7, R24). -/
abbrev Idx := BitVec 9

/-- `SYM_W = 8` bits: a symbol (R7, R12). -/
abbrev Sym := BitVec 8

/-- An index that names an entry of the node arena, 0 to 510 (R24); NIL is not one. -/
abbrev NodeId := Fin 511

end Sys2Proof
end

