-- ==== Sys2Proof/Syntax.lean ====
section
/-! DEFINITION. The seven commands of the block, one constructor per row of spec/opcode_table.json
(30_encoding.md R92). No command has an operand (R91). -/

namespace Sys2Proof

/-- A command (30_encoding.md R92). -/
inductive Instr where
  /-- NOP (42_control.md R160). -/
  | nop
  /-- CLEAR (42_control.md R161). -/
  | clear
  /-- PQ_INIT (40_tree_builder.md R112). -/
  | pqInit
  /-- MERGE (40_tree_builder.md R113). -/
  | merge
  /-- FINISH (40_tree_builder.md R114). -/
  | finish
  /-- BUILD (40_tree_builder.md R115). -/
  | build
  /-- GEN_CODES (41_code_table_generator.md R140). -/
  | genCodes
  deriving DecidableEq, Repr

end Sys2Proof
end

