-- ==== Sys2Proof/WellFormed.lean ====
section
/-! DEFINITION. Well-formed command words (30_encoding.md R90, R92). A term of `Instr` carries no operand (R91), so
every one of them is well formed and there is nothing to check on it; what can be ill formed is the word the host
writes to CMD. -/

namespace Sys2Proof

/-- Field `RSV`, bits 31:4, is 0 (R90: "reserved, must be 0"). -/
def CommandWord.rsvZero (v : Word) : Bool := v.extractLsb' 4 28 == 0#28

/-- Field `OP`, bits 3:0, is one of the seven assigned opcodes 0x0 to 0x6 (R92). -/
def CommandWord.opAssigned (v : Word) : Bool := decide ((v.extractLsb' 0 4).toNat ≤ 6)

/-- The word selects a command (R92). -/
def CommandWord.wf (v : Word) : Bool := CommandWord.rsvZero v && CommandWord.opAssigned v

end Sys2Proof
end

