-- ==== Sys2Proof/Decode.lean ====
section
/-! DEFINITION. The command decoder, total on every word and on every list of bytes, and after it the encoder
(30_encoding.md R90 to R95); the byte lanes of a word (20_memory.md R61). -/

namespace Sys2Proof

/-- Why a word is ILLEGAL (30_encoding.md R93, R94). All three end the same way, in ILLEGAL_CMD or in no access at all. -/
inductive Illegal where
  /-- `RSV != 0`. -/
  | reservedBits
  /-- `OP` is 0x7 to 0xF. -/
  | reservedOpcode
  /-- Not the four bytes of one word: no command form has another length (R95), and no access another width
  (20_memory.md R63). -/
  | notOneWord
  deriving DecidableEq, Repr

/-- Byte lane `b` of a word: bits `[8*b+7 : 8*b]` (20_memory.md R61). -/
def byteLane (v : Word) (b : Nat) : Byte := v.extractLsb' (8 * b) 8

/-- The word whose byte lanes 0 to 3 are the given bytes (20_memory.md R61). -/
def wordOfLanes (b0 b1 b2 b3 : Byte) : Word := b3 ++ b2 ++ b1 ++ b0

/-- `decode(v)` (30_encoding.md R93). -/
def decode (v : Word) : Except Illegal Instr :=
  if v.extractLsb' 4 28 ≠ 0#28 then .error .reservedBits
  else match (v.extractLsb' 0 4).toNat with
    | 0 => .ok .nop
    | 1 => .ok .clear
    | 2 => .ok .pqInit
    | 3 => .ok .merge
    | 4 => .ok .finish
    | 5 => .ok .build
    | 6 => .ok .genCodes
    | _ => .error .reservedOpcode

/-- Decoding of the bytes of a command word, lowest offset first: exactly one 32-bit word (R90, R95). -/
def decodeBytes : List Byte → Except Illegal Instr
  | [b0, b1, b2, b3] => decode (wordOfLanes b0 b1 b2 b3)
  | _ => .error .notOneWord

/-- Field `OP` of each command (R92). -/
def opcode : Instr → BitVec 4
  | .nop => 0x0#4
  | .clear => 0x1#4
  | .pqInit => 0x2#4
  | .merge => 0x3#4
  | .finish => 0x4#4
  | .build => 0x5#4
  | .genCodes => 0x6#4

/-- The command word: `RSV = 0` above `OP` (R90). -/
def encode (i : Instr) : Word := 0#28 ++ opcode i

/-- The bytes of the command word, lowest offset first (20_memory.md R61). -/
def encodeBytes (i : Instr) : List Byte := (List.range 4).map (byteLane (encode i))

/-- The bytes of an instruction whose `nbits` bits are `w`, with every bit above them 0, at least the four bytes of a
command word. -/
def tableBytes (nbits w : Nat) : List Byte :=
  (List.range (max 4 ((nbits + 7) / 8))).map fun b => BitVec.ofNat 8 (w % 2 ^ nbits / 2 ^ (8 * b))

/-- The command that the decoder reads from a row of spec/opcode_table.json whose bits are `w`. -/
def decodeTableWord (nbits w : Nat) : Option Instr :=
  match decodeBytes (tableBytes nbits w) with
  | .ok i => some i
  | .error _ => none

end Sys2Proof
end

