-- ==== Sys2Proof/Config.lean ====
section
/-! DEFINITION. What the spec fixes for the block as a parameter (00_scope.md R7), the one value it leaves to the
platform (`BASE`, 20_memory.md R70), and the free values of reads made while `busy = 1` (20_memory.md R68). -/

namespace Sys2Proof

/-- `NSYM`: the number of symbol values (R7). -/
abbrev Config.nSym : Nat := 256

/-- `MAX_NODES`: the node arena's size (R7). -/
abbrev Config.maxNodes : Nat := 511

/-- `NIL`: the index value that names no node (R7). -/
abbrev Config.nil : Idx := 0x1FF#9

/-- `MAX_FREQ`: the largest weight (R7). -/
abbrev Config.maxFreq : Nat := 0xFFFFFFFF

/-- The deepest stack of the tree walk, in entries (41_code_table_generator.md R146). -/
abbrev Config.walkStack : Nat := 256

/-- The value of draw number `n` (R68: "any 32-bit value, reserved bits included"). DESIGN CHOICE (log entry 3), safe:
it has no body, so nothing can be proved about the value of a draw, nor that draws of two numbers are equal or differ.
DESIGN CHOICE (log entry 20), unsafe in statements that compare two states: a draw takes its number alone and not the
block's state, where R68 puts it under no law and so lets it depend on the state. -/
opaque Config.draw : Nat → Word

/-- `BASE`: where the block's window sits in a host's address space (R70). No body: the platform's parameter. Every
address of the model is an offset from it (log entry 13). -/
opaque Config.base : Nat

end Sys2Proof
end

