-- ==== Sys2Proof/Machine/State.lean ====
section
/-! DEFINITION. The state of the block as plain data (10_state.md), the reasons a step can stop, and the state right
after reset (10_state.md R50, 70_reset_and_hazards.md R201). Besides the spec's state it holds three fields of the
model's own: the schedule still to come, what the host port last answered, and the number of draws taken. -/

namespace Sys2Proof.Machine

/-- A storage array: a list of (index, entry) cells in one canonical form (`Memory.wf`, Machine/Ops.lean): indices
strictly rising, no cell equal to what an unlisted index reads as. -/
abbrev Memory (α : Type) := List (Nat × α)

/-- The tag of a node record: the two forms of a tree node (10_state.md R24). -/
inductive Tag where
  /-- 0: a leaf, holding a symbol. -/
  | leaf
  /-- 1: an internal node, holding two children. -/
  | internal
  deriving DecidableEq, Repr

/-- One entry of the node arena (10_state.md R24). -/
structure Node where
  /-- The entry holds an allocated node. -/
  valid : Bool
  tag : Tag
  weight : Word
  /-- The symbol of a leaf; 0 in an internal node. -/
  sym : Sym
  /-- The left child of an internal node; NIL in a leaf. -/
  left : Idx
  /-- The right child of an internal node; NIL in a leaf. -/
  right : Idx
  deriving DecidableEq, Repr

/-- An unallocated entry: every field 0 (10_state.md R27). What an unlisted index of the arena reads as. -/
def Node.zero : Node := ⟨false, .leaf, 0, 0, 0, 0⟩

/-- One entry of the code table (10_state.md R31). -/
structure Code where
  /-- The symbol is a leaf of the tree. -/
  valid : Bool
  /-- The number of digits. -/
  len : BitVec 8
  /-- Digit `j`, counted from the root, is bit `j`. -/
  bits : BitVec 256
  deriving DecidableEq, Repr

/-- An invalid entry: every field 0 (10_state.md R31). What an unlisted symbol of the code table reads as. -/
def Code.zero : Code := ⟨false, 0, 0⟩

/-- The build state (10_state.md R33). -/
inductive Phase where
  /-- 0: no tree, no queue. -/
  | empty
  /-- 1: leaves allocated and queued. -/
  | queued
  /-- 2: tree finished, code table not derived. -/
  | built
  /-- 3: tree finished and code table derived. -/
  | coded
  deriving DecidableEq, Repr

/-- The error codes (60_exceptions.md R170). The reserved codes 0x6 to 0xF are never recorded, so they are no values
of the type (log entry 12). -/
inductive ErrCode where
  | none
  | illegalCmd
  | busy
  | emptyInput
  | badSequence
  | weightOverflow
  deriving DecidableEq, Repr

/-- What the engine is doing. `busy` is 1 in every case but `idle` (10_state.md R34; log entry 5). -/
inductive Engine where
  /-- Nothing in progress. -/
  | idle
  /-- The clearing period after reset (70_reset_and_hazards.md R201). -/
  | clearing
  /-- The accepted command is in progress (60_exceptions.md R171). -/
  | running (i : Instr)
  deriving DecidableEq, Repr

/-- One event of the interleaving of the two agents and the reset input (00_scope.md R13, 20_memory.md R72). -/
inductive Event where
  /-- The host reads `n` bytes at byte offset `a` (00_scope.md R10 `MemRead(a, n)`). -/
  | read (a : Addr) (n : Nat)
  /-- The host writes `v` in `n` bytes at byte offset `a` (00_scope.md R10 `MemWrite(a, n, v)`). -/
  | write (a : Addr) (n : Nat) (v : Word)
  /-- The engine's step falls here: a command's completion (60_exceptions.md R172), or the end of the clearing
  period (70_reset_and_hazards.md R201). -/
  | engine
  /-- The reset input is asserted and released (70_reset_and_hazards.md R200). -/
  | reset
  deriving DecidableEq, Repr

/-- What the host port last answered. -/
inductive Response where
  /-- No access has been answered since reset. -/
  | none
  /-- A read returned this word. -/
  | data (v : Word)
  /-- A write was taken by the port (its effect may still be that it is ignored or dropped). -/
  | written
  /-- The bus's error response (20_memory.md R64); no data. -/
  | busError
  deriving DecidableEq, Repr

/-- The state of the machine. Every field down to `errCode` is the spec's (INVENTORY.md lists each with its rule);
the last three are the model's own. -/
structure State where
  /-- `freq[s]` (R23). -/
  freq : Memory Word
  /-- `node[i]` (R24). -/
  node : Memory Node
  /-- `nleaf` (R28). -/
  nleaf : BitVec 9
  /-- `nnode` (R28). -/
  nnode : BitVec 9
  /-- `pq`, a set of node indices (R29), listed in rising order. -/
  pq : List NodeId
  /-- `root` (R30). -/
  root : Idx
  /-- `code[s]` (R31). -/
  code : Memory Code
  /-- `phase` (R33). -/
  phase : Phase
  /-- `ie` (R32). -/
  ie : Bool
  /-- `busy` (R34) and the command in progress (R171). -/
  engine : Engine
  /-- `done` (R35). -/
  done : Bool
  /-- `err` (R36). -/
  err : Bool
  /-- `err_code` (R36). -/
  errCode : ErrCode
  /-- The model's own: the events still to come, the next one first (log entry 1). -/
  sched : List Event
  /-- The model's own: what the host port last answered (log entry 4). -/
  resp : Response
  /-- The model's own: how many draws have been taken (log entries 3 and 20). -/
  draws : Nat
  deriving DecidableEq, Repr

/-- Why the machine stops with a fault. Neither can happen in a state that a run from reset reaches (10_state.md R51). -/
inductive Fault where
  /-- An index outside the node arena 0..510 where a node is needed: MERGE with all 511 entries allocated, or the walk
  of GEN_CODES sent to NIL. Raised by `mergeBody` and `walk`. Safe: the spec names no node there (10_state.md R24,
  R48), and 40_tree_builder.md R113 says that `k <= 510` always. -/
  | noSuchNode
  /-- The walk of GEN_CODES goes below depth 255. Raised by `walk`. Safe: 41_code_table_generator.md R142 says that the
  depth never exceeds 255. -/
  | walkTooDeep
  deriving DecidableEq, Repr

/-- Why the machine refuses. -/
inductive Refusal where
  /-- An instruction with no meaning yet, raised by `exec`'s arm for it alone. Safe. No arm raises it. -/
  | notModelled (mnemonic : String)
  deriving DecidableEq, Repr

/-- How the rule of a command ends (40_tree_builder.md R110). -/
inductive CmdEnd where
  /-- It reached its end, leaving this state. -/
  | ok (s : State)
  /-- `raise Error(e)`, with the state the steps before it left. -/
  | raised (e : ErrCode) (s : State)
  /-- The model stops (see `Fault`). -/
  | stuck (f : Fault)
  deriving DecidableEq, Repr

/-- The machine right after reset, at the start of the clearing period: `busy = 1`, `done = 0`, `err = 0`,
`err_code = 0`, `ie = 0` (70_reset_and_hazards.md R201), every table and counter at its value of 10_state.md R50 (log
entry 6), and no event scheduled. -/
def State.reset : State where
  freq := []
  node := []
  nleaf := 0
  nnode := 0
  pq := []
  root := Config.nil
  code := []
  phase := .empty
  ie := false
  engine := .clearing
  done := false
  err := false
  errCode := .none
  sched := []
  resp := .none
  draws := 0

end Sys2Proof.Machine
end

