-- ==== Sys2Proof/Machine/Ops.lean ====
section
/-! DEFINITION. The named operations: reading and writing the storage arrays, recording an error and ending a command
(the block's exception entry, 60_exceptions.md R172, R177), acknowledging it (its return, R178), and starting a
command (R171). -/

namespace Sys2Proof.Machine

/-- The entry at index `k`, or `d` where the array lists none. -/
def Memory.read {α : Type} (d : α) : Memory α → Nat → α
  | [], _ => d
  | (j, v) :: m, k => if j = k then v else Memory.read d m k

/-- The array with entry `k` set to `v`, in canonical form: writing what an unlisted index reads as (`d`) removes the
cell. -/
def Memory.write {α : Type} [DecidableEq α] (d : α) : Memory α → Nat → α → Memory α
  | [], k, v => if v = d then [] else [(k, v)]
  | (j, u) :: m, k, v =>
    if k < j then (if v = d then (j, u) :: m else (k, v) :: (j, u) :: m)
    else if k = j then (if v = d then m else (k, v) :: m)
    else (j, u) :: Memory.write d m k v

/-- The canonical form of an array of `n` entries: indices strictly rising and below `n`, no cell equal to what an
unlisted index reads as. -/
abbrev Memory.wf {α : Type} [DecidableEq α] (n : Nat) (d : α) (m : Memory α) : Prop :=
  m.Pairwise (fun c c' => c.1 < c'.1) ∧ ∀ c ∈ m, c.1 < n ∧ c.2 ≠ d

/-- `freq[x]` (10_state.md R23); an unlisted entry is 0 (R50). -/
def State.freqAt (s : State) (x : Nat) : Word := s.freq.read 0 x

/-- `node[i]` (10_state.md R24); an unlisted entry is unallocated (R27), and an index outside the arena, NIL among
them, names no node and reads 0 (R48). -/
def State.nodeAt (s : State) (i : Nat) : Node := if i < Config.maxNodes then s.node.read Node.zero i else Node.zero

/-- `code[x]` (10_state.md R31); an unlisted entry is invalid. -/
def State.codeAt (s : State) (x : Nat) : Code := s.code.read Code.zero x

/-- `freq[x] <- v`. -/
def State.setFreq (s : State) (x : Nat) (v : Word) : State := { s with freq := s.freq.write 0 x v }

/-- `node[k] <- n`. -/
def State.setNode (s : State) (k : NodeId) (n : Node) : State := { s with node := s.node.write Node.zero k.val n }

/-- `busy` (10_state.md R34): a command or the clearing period is in progress. -/
def State.busy (s : State) : Bool := s.engine != .idle

/-- `set_err(e)` (10_state.md R36): the first error since `err` was last cleared is kept. -/
def State.setErr (s : State) (e : ErrCode) : State := if s.err then s else { s with err := true, errCode := e }

/-- `done <- 0`: W1C of STATUS bit 1 (10_state.md R43). -/
def State.ackDone (s : State) : State := { s with done := false }

/-- The return from an error (60_exceptions.md R178): W1C of STATUS bit 2 (10_state.md R43). -/
def State.ackErr (s : State) : State := { s with err := false, errCode := .none }

/-- A command is accepted (60_exceptions.md R171, last branch): `done <- 0`, `busy <- 1`, the command in progress. -/
def State.start (s : State) (i : Instr) : State := { s with done := false, engine := .running i }

/-- The next step of a command that has several (40_tree_builder.md R115): a `raise` inside a step ends the command. -/
def CmdEnd.andThen : CmdEnd → (State → CmdEnd) → CmdEnd
  | .ok s, f => f s
  | .raised e s, _ => .raised e s
  | .stuck r, _ => .stuck r

/-- The completion of a command (60_exceptions.md R172): `busy <- 0`, then `set_err(e)` if it raised `e` (the error
entry of R177) and `done <- 1` if not. -/
def complete : CmdEnd → Host.Outcome State Fault Refusal
  | .ok s => .next { s with engine := .idle, done := true }
  | .raised e s => .next ({ s with engine := .idle }.setErr e)
  | .stuck r => .fault r

end Sys2Proof.Machine
end

