-- ==== Sys2Proof/Machine/Flags.lean ====
section
/-! DEFINITION. The flags and the words that show them: the derived flags `degen` and `irq` (10_state.md R37, R38), the
codes of phase, tag and error, and the CTRL and STATUS words (R41, R43). `busy` is in Machine/Ops.lean. -/

namespace Sys2Proof.Machine

/-- The 1-bit code of a tag (10_state.md R24). -/
def tagBit : Tag → BitVec 1
  | .leaf => 0#1
  | .internal => 1#1

/-- The 2-bit code of a phase (10_state.md R33). -/
def phaseBits : Phase → BitVec 2
  | .empty => 0#2
  | .queued => 1#2
  | .built => 2#2
  | .coded => 3#2

/-- The 4-bit error code (60_exceptions.md R170). -/
def errBits : ErrCode → BitVec 4
  | .none => 0x0#4
  | .illegalCmd => 0x1#4
  | .busy => 0x2#4
  | .emptyInput => 0x3#4
  | .badSequence => 0x4#4
  | .weightOverflow => 0x5#4

/-- A finished tree exists: phase BUILT or CODED. -/
def State.finished (s : State) : Bool := s.phase == .built || s.phase == .coded

/-- `degen` (10_state.md R37): the finished tree is one leaf. -/
def State.degen (s : State) : Bool := s.finished && (s.nodeAt s.root.toNat).tag == .leaf

/-- `irq = ie AND (done OR err)` (10_state.md R38). -/
def State.irq (s : State) : Bool := s.ie && (s.done || s.err)

/-- The CTRL word (10_state.md R41). -/
def State.ctrlWord (s : State) : Word := 0#31 ++ BitVec.ofBool s.ie

/-- The STATUS word with every field exact (10_state.md R43). -/
def State.statusWord (s : State) : Word :=
  0#14 ++ phaseBits s.phase ++ 0#4 ++ errBits s.errCode ++ 0#4 ++ BitVec.ofBool s.degen ++ BitVec.ofBool s.err ++
    BitVec.ofBool s.done ++ BitVec.ofBool s.busy

/-- The STATUS bits that read a draw while `busy = 1`: DEGEN and PHASE (20_memory.md R68). -/
def statusDrawMask : Word := 0x00030008#32

end Sys2Proof.Machine
end

