-- ==== Sys2Proof/Machine/Bus.lean ====
section
/-! DEFINITION. The host port: the address map (20_memory.md R60), what each register and window word reads
(10_state.md R39 to R49; 20_memory.md R67, R68), what each write does (20_memory.md R65, R66; 10_state.md R41 to R43;
60_exceptions.md R171), and the bus error (20_memory.md R62 to R64). -/

namespace Sys2Proof.Machine

/-- What an aligned byte offset selects (20_memory.md R60). -/
inductive Region where
  | id
  | param
  | ctrl
  | cmd
  | status
  | root
  | counts
  | pqcount
  /-- `freq[x]`. -/
  | freq (x : Nat)
  /-- Word `k` of `node[i]`, `i` in 0..511. -/
  | node (i k : Nat)
  /-- Word `k` of `code[x]`. -/
  | code (x k : Nat)
  | reserved
  deriving DecidableEq, Repr

/-- The eight control and status registers, by word number (20_memory.md R60). -/
def regionOfRegister : Nat → Region
  | 0 => .id
  | 1 => .param
  | 2 => .ctrl
  | 3 => .cmd
  | 4 => .status
  | 5 => .root
  | 6 => .counts
  | 7 => .pqcount
  | _ => .reserved

/-- The address map (20_memory.md R60), for a word-aligned offset. -/
def regionOf (a : Addr) : Region :=
  if a.toNat < 0x0400 then regionOfRegister (a.toNat / 4)
  else if a.toNat < 0x0800 then .freq ((a.toNat - 0x0400) / 4)
  else if a.toNat < 0x1000 then .reserved
  else if a.toNat < 0x3000 then .node ((a.toNat - 0x1000) / 16) ((a.toNat - 0x1000) / 4 % 4)
  else if a.toNat < 0x4000 then .reserved
  else .code ((a.toNat - 0x4000) / 64) ((a.toNat - 0x4000) / 4 % 16)

/-- ID (10_state.md R39). -/
def idWord : Word := 0x46465548#32

/-- PARAM (10_state.md R40). -/
def paramWord : Word := 0x00FF2008#32

/-- Word `k` of a NODE entry (10_state.md R48): NODE_W, NODE_INFO, NODE_LINK, reserved. -/
def nodeWord (n : Node) : Nat → Word
  | 0 => n.weight
  | 1 => BitVec.ofBool n.valid ++ tagBit n.tag ++ 0#22 ++ n.sym
  | 2 => 0#7 ++ n.right ++ 0#7 ++ n.left
  | _ => 0

/-- Word `k` of a CODE entry (10_state.md R49): CODE_INFO, CODE_BITS[0] to CODE_BITS[7], reserved. -/
def codeWord (c : Code) (k : Nat) : Word :=
  if k = 0 then BitVec.ofBool c.valid ++ 0#23 ++ c.len
  else if k ≤ 8 then c.bits.extractLsb' (32 * (k - 1)) 32
  else 0

/-- The word that a read with `busy = 0` returns (10_state.md R39 to R49, 20_memory.md R65, R67). -/
def State.exactWord (s : State) : Region → Word
  | .id => idWord
  | .param => paramWord
  | .ctrl => s.ctrlWord
  | .cmd => 0
  | .status => s.statusWord
  | .root => 0#23 ++ s.root
  | .counts => 0#7 ++ s.nnode ++ 0#7 ++ s.nleaf
  | .pqcount => BitVec.ofNat 32 s.pq.length
  | .freq x => s.freqAt x
  | .node i k => nodeWord (s.nodeAt i) k
  | .code x k => codeWord (s.codeAt x) k
  | .reserved => 0

/-- What a read returns while `busy = 1`, the draw being `d` (20_memory.md R68); `none` where the exact value is read. -/
def State.drawnWord (s : State) (d : Word) : Region → Option Word
  | .status => some ((s.statusWord &&& ~~~statusDrawMask) ||| (d &&& statusDrawMask))
  | .root => some d
  | .counts => some d
  | .pqcount => some d
  | .freq _ => some d
  | .node _ _ => some d
  | .code _ _ => some d
  | .id => none
  | .param => none
  | .ctrl => none
  | .cmd => none
  | .reserved => none

/-- The access is one aligned 32-bit word; every other access takes `bus_error` (20_memory.md R62, R63). -/
def wholeWord (a : Addr) (n : Nat) : Bool := n == 4 && a.toNat % 4 == 0

/-- A read of the word that `r` selects: no state of the block changes (20_memory.md R67, R68). -/
def State.readRegion (s : State) (r : Region) : State :=
  match if s.busy then s.drawnWord (Config.draw s.draws) r else none with
  | some v => { s with resp := .data v, draws := s.draws + 1 }
  | none => { s with resp := .data (s.exactWord r) }

/-- One host read, `MemRead(a, n)` (20_memory.md R64, R67, R68). -/
def State.hostRead (s : State) (a : Addr) (n : Nat) : State :=
  if wholeWord a n then s.readRegion (regionOf a) else { s with resp := .busError }

/-- A write of the command word `v` to CMD: acceptance (60_exceptions.md R171). -/
def State.issue (s : State) (v : Word) : State :=
  if s.busy then s.setErr .busy
  else match decode v with
    | .error _ => s.setErr .illegalCmd
    | .ok i => s.start i

/-- A write to STATUS (10_state.md R43): W1C of DONE by bit 1 and of ERR with ERR_CODE by bit 2. -/
def State.writeStatus (s : State) (v : Word) : State :=
  let t := if v.getLsbD 1 then s.ackDone else s
  if v.getLsbD 2 then t.ackErr else t

/-- A write to CTRL (10_state.md R41). -/
def State.writeCtrl (s : State) (v : Word) : State := { s with ie := v.getLsbD 0 }

/-- A write to `freq[x]` (20_memory.md R66). -/
def State.writeFreq (s : State) (x : Nat) (v : Word) : State := if s.busy then s.setErr .busy else s.setFreq x v

/-- What a write of `v` does where `r` selects; it is ignored at a read-only or reserved place (20_memory.md R65). -/
def State.writeRegion (s : State) (v : Word) : Region → State
  | .ctrl => s.writeCtrl v
  | .cmd => s.issue v
  | .status => s.writeStatus v
  | .freq x => s.writeFreq x v
  | .id => s
  | .param => s
  | .root => s
  | .counts => s
  | .pqcount => s
  | .node _ _ => s
  | .code _ _ => s
  | .reserved => s

/-- One host write, `MemWrite(a, n, v)` (20_memory.md R62 to R66). -/
def State.hostWrite (s : State) (a : Addr) (n : Nat) (v : Word) : State :=
  if wholeWord a n then { s.writeRegion v (regionOf a) with resp := .written } else { s with resp := .busError }

/-- The reset input (70_reset_and_hazards.md R200, R201): the command in progress is abandoned and the clearing period
begins. The events still to come and the count of draws are the model's own and go on. -/
def State.applyReset (s : State) : State := { State.reset with sched := s.sched, draws := s.draws }

/-- The offset of CMD (10_state.md R42). -/
def cmdAddr : Addr := 0x000C#15

end Sys2Proof.Machine
end

