-- ==== Sys2Proof/Machine/Operands.lean ====
section
/-! DEFINITION. What the commands work on. No command has an operand field (30_encoding.md R91): their inputs are
block state, read here: the present symbols (40_tree_builder.md R112), and the priority queue as a set ordered by
`key(i) = (node[i].weight, i)` (R111). -/

namespace Sys2Proof.Machine

/-- The present symbols, ascending: `[ s in 0..255 | freq[s] != 0 ]` (40_tree_builder.md R112). -/
def State.present (s : State) : List Nat := (List.range Config.nSym).filter fun x => s.freqAt x != 0

/-- The weight of a node, as the queue compares it. -/
def State.weightAt (s : State) (i : NodeId) : Word := (s.nodeAt i.val).weight

/-- `key(i) < key(j)`: the lesser weight, unsigned, or the lesser index between equal weights (40_tree_builder.md R111). -/
def State.keyLt (s : State) (i j : NodeId) : Bool :=
  decide (s.weightAt i < s.weightAt j) || (s.weightAt i == s.weightAt j && decide (i < j))

/-- `argmin_key(S)` (40_tree_builder.md R111); `none` for the empty set. -/
def State.argminKey (s : State) : List NodeId → Option NodeId
  | [] => none
  | i :: q =>
    match s.argminKey q with
    | none => some i
    | some j => if s.keyLt i j then some i else some j

/-- The two extractions of MERGE (40_tree_builder.md R113): `a <- argmin_key(pq)`, `b <- argmin_key(pq \ {a})`, and
`pq \ {a, b}`. It is `none` exactly when `pq` holds fewer than two nodes. -/
def State.popTwo (s : State) : Option (NodeId × NodeId × List NodeId) :=
  match s.argminKey s.pq with
  | none => none
  | some a =>
    match s.argminKey (s.pq.erase a) with
    | none => none
    | some b => some (a, b, (s.pq.erase a).erase b)

/-- `S ∪ {k}`, listed in rising order. -/
def insertId (k : NodeId) : List NodeId → List NodeId
  | [] => [k]
  | i :: q => if k < i then k :: i :: q else if k = i then i :: q else i :: insertId k q

/-- A node's index as a link or a register holds it. -/
def idxOf (i : NodeId) : Idx := BitVec.ofNat 9 i.val

/-- The exact 33-bit sum of two weights (40_tree_builder.md R113, R116). -/
def weightSum (x y : Word) : BitVec 33 := x.setWidth 33 + y.setWidth 33

end Sys2Proof.Machine
end

