-- ==== Sys2Proof/Machine/CodeGen.lean ====
section
/-! DEFINITION. The code-table generator command GEN_CODES (41_code_table_generator.md). -/

namespace Sys2Proof.Machine

/-- `walk(i, d, p)` (41_code_table_generator.md R140), adding to the table `m`: a leaf records its path, an internal
node walks its left child with digit 0 at position `d` and then its right child with digit 1. The first argument is
the number of stack entries left, 256 at the root (R146). -/
def walk (s : State) : Nat → Idx → Nat → BitVec 256 → Memory Code → Except Fault (Memory Code)
  | 0, _, _, _, _ => .error .walkTooDeep
  | n + 1, i, d, p, m =>
    if i = Config.nil then .error .noSuchNode
    else match (s.nodeAt i.toNat).tag with
      | .leaf => .ok (m.write Code.zero (s.nodeAt i.toNat).sym.toNat ⟨true, BitVec.ofNat 8 d, p⟩)
      | .internal =>
        match walk s n (s.nodeAt i.toNat).left (d + 1) p m with
        | .error f => .error f
        | .ok m' => walk s n (s.nodeAt i.toNat).right (d + 1) (p ||| (1#256 <<< d)) m'

/-- The code table that the walk from the root derives, every entry invalid before it (41_code_table_generator.md R140). -/
def State.codeTable (s : State) : Except Fault (Memory Code) := walk s Config.walkStack s.root 0 0 []

/-- The body of GEN_CODES (41_code_table_generator.md R140). -/
def genCodesBody (s : State) : CmdEnd :=
  if s.finished then
    match s.codeTable with
    | .ok m => .ok { s with code := m, phase := .coded }
    | .error f => .stuck f
  else .raised .badSequence s

/-- GEN_CODES (41_code_table_generator.md R140). -/
def execGenCodes (s : State) : Host.Outcome State Fault Refusal := complete (genCodesBody s)

end Sys2Proof.Machine
end

