-- ==== Sys2Proof/Machine/Control.lean ====
section
/-! DEFINITION. The control commands NOP and CLEAR (42_control.md). -/

namespace Sys2Proof.Machine

/-- NOP (42_control.md R160): nothing; its completion sets `done`. -/
def execNop (s : State) : Host.Outcome State Fault Refusal := complete (.ok s)

/-- The tables, counters, queue, root and phase at their reset values (42_control.md R161, 10_state.md R50). -/
def State.cleared (s : State) : State :=
  { s with freq := [], node := [], code := [], nleaf := 0, nnode := 0, pq := [], root := Config.nil, phase := .empty }

/-- CLEAR (42_control.md R161): `ie`, `err` and `err_code` are kept. -/
def execClear (s : State) : Host.Outcome State Fault Refusal := complete (.ok s.cleared)

/-- The end of the clearing period (70_reset_and_hazards.md R201): `busy <- 0`, and all but `ie`, `err` and `err_code`
at the reset value of 10_state.md R50; neither `done` nor `err` is set. -/
def State.endClearing (s : State) : State := { s.cleared with engine := .idle, done := false }

end Sys2Proof.Machine
end

