-- ==== Sys2Proof/Machine/TreeBuilder.lean ====
section
/-! DEFINITION. The tree-builder commands PQ_INIT, MERGE, FINISH and BUILD (40_tree_builder.md). Each command's rule is
a body, so that BUILD can perform the bodies of the other three (R115); its meaning is the body's completion. -/

namespace Sys2Proof.Machine

/-- The leaf of symbol `x` (40_tree_builder.md R112, 10_state.md R25): its weight is a copy of `freq[x]`. -/
def State.leafOf (s : State) (x : Nat) : Node :=
  { valid := true, tag := .leaf, weight := s.freqAt x, sym := BitVec.ofNat 8 x, left := Config.nil, right := Config.nil }

/-- The arena that holds the leaves of the symbols `S` at indices 0, 1, ... and nothing else (40_tree_builder.md R112). -/
def State.leafArena (s : State) (S : List Nat) : Memory Node := S.zipIdx.map fun p => (p.2, s.leafOf p.1)

/-- The queue `{0 .. n-1}` (40_tree_builder.md R112). -/
def firstIds (n : Nat) : List NodeId := (List.range n).map (Fin.ofNat 511)

/-- PQ_INIT's state for the present symbols `S`, not empty (40_tree_builder.md R112). -/
def State.queueLeaves (s : State) (S : List Nat) : State :=
  { s with
    node := s.leafArena S
    code := []
    nleaf := BitVec.ofNat 9 S.length
    nnode := BitVec.ofNat 9 S.length
    pq := firstIds S.length
    root := Config.nil
    phase := .queued }

/-- The body of PQ_INIT (40_tree_builder.md R112). -/
def pqInitBody (s : State) : CmdEnd :=
  if s.present = [] then .raised .emptyInput s else .ok (s.queueLeaves s.present)

/-- The internal node that MERGE makes of `a` and `b` (40_tree_builder.md R113, 10_state.md R26). -/
def parentNode (w : Word) (a b : NodeId) : Node :=
  { valid := true, tag := .internal, weight := w, sym := 0, left := idxOf a, right := idxOf b }

/-- The body of MERGE (40_tree_builder.md R113). `k <- nnode` must name an entry of the arena: it always does in a run
(R113), and where it does not the model stops (log entry 10). -/
def mergeBody (s : State) : CmdEnd :=
  if s.phase ≠ .queued then .raised .badSequence s
  else match s.popTwo with
    | none => .raised .badSequence s
    | some (a, b, rest) =>
      if (weightSum (s.weightAt a) (s.weightAt b)).toNat > Config.maxFreq then .raised .weightOverflow s
      else if h : s.nnode.toNat < 511 then
        .ok { s.setNode ⟨s.nnode.toNat, h⟩
                (parentNode ((weightSum (s.weightAt a) (s.weightAt b)).setWidth 32) a b) with
              nnode := s.nnode + 1
              pq := insertId ⟨s.nnode.toNat, h⟩ rest }
      else .stuck .noSuchNode

/-- The body of FINISH (40_tree_builder.md R114). -/
def finishBody (s : State) : CmdEnd :=
  if s.phase ≠ .queued then .raised .badSequence s
  else match s.pq with
    | [r] => .ok { s with root := idxOf r, pq := [], phase := .built }
    | _ => .raised .badSequence s

/-- "while |pq| > 1: perform the body of MERGE" (40_tree_builder.md R115), at most `n` times. Each MERGE takes two nodes
from `pq` and puts one in, so `|pq|` times is always enough. -/
def mergeLoop : Nat → State → CmdEnd
  | 0, s => .ok s
  | n + 1, s => if s.pq.length > 1 then (mergeBody s).andThen (mergeLoop n) else .ok s

/-- The body of BUILD (40_tree_builder.md R115). -/
def buildBody (s : State) : CmdEnd :=
  (pqInitBody s).andThen fun t => (mergeLoop t.pq.length t).andThen finishBody

/-- PQ_INIT (40_tree_builder.md R112). -/
def execPqInit (s : State) : Host.Outcome State Fault Refusal := complete (pqInitBody s)

/-- MERGE (40_tree_builder.md R113). -/
def execMerge (s : State) : Host.Outcome State Fault Refusal := complete (mergeBody s)

/-- FINISH (40_tree_builder.md R114). -/
def execFinish (s : State) : Host.Outcome State Fault Refusal := complete (finishBody s)

/-- BUILD (40_tree_builder.md R115): `done` or the error once, at its end. -/
def execBuild (s : State) : Host.Outcome State Fault Refusal := complete (buildBody s)

end Sys2Proof.Machine
end

