-- ==== Sys2Proof/Machine/Dispatch.lean ====
section
/-! DEFINITION. `exec i s`: the engine performs the rule of the command `i` and completes it, in one atomic step
(60_exceptions.md R172). One arm per constructor of `Instr`. -/

namespace Sys2Proof.Machine

def exec (i : Instr) (s : State) : Host.Outcome State Fault Refusal :=
  match i with
  | .nop => Sys2Proof.Machine.execNop s
  | .clear => Sys2Proof.Machine.execClear s
  | .pqInit => Sys2Proof.Machine.execPqInit s
  | .merge => Sys2Proof.Machine.execMerge s
  | .finish => Sys2Proof.Machine.execFinish s
  | .build => Sys2Proof.Machine.execBuild s
  | .genCodes => Sys2Proof.Machine.execGenCodes s

end Sys2Proof.Machine
end

