-- ==== Sys2Proof/Machine/Step.lean ====
section
/-! DEFINITION. One step of the machine: the next event of the schedule, a host access, the engine's step or the reset
input (00_scope.md R13, 20_memory.md R72). With no event scheduled the engine moves by itself, so that every accepted
command completes (60_exceptions.md R172), and an idle block stays as it is (70_reset_and_hazards.md R202). -/

namespace Sys2Proof.Machine

/-- The engine's step: the completion of the command in progress (60_exceptions.md R172), the end of the clearing
period (70_reset_and_hazards.md R201), or nothing where the engine is idle. -/
def engineStep (s : State) : Host.Outcome State Fault Refusal :=
  match s.engine with
  | .idle => .next s
  | .clearing => .next s.endClearing
  | .running i => exec i s

/-- The step for event `e`, the schedule after it being already in `s`. -/
def eventStep (e : Event) (s : State) : Host.Outcome State Fault Refusal :=
  match e with
  | .read a n => .next (s.hostRead a n)
  | .write a n v => .next (s.hostWrite a n v)
  | .engine => engineStep s
  | .reset => .next s.applyReset

/-- One step (00_scope.md R13). -/
def step (s : State) : Host.Outcome State Fault Refusal :=
  match s.sched with
  | [] => engineStep s
  | e :: es => eventStep e { s with sched := es }

/-- `s` with the instruction whose `nbits` bits are `w` as the very next thing the machine runs (log entry 7). A word
that decodes is the accepted command in progress and the engine moves next; a word that does not is the host's next
write to CMD. -/
def State.withFetchWord (s : State) (nbits w : Nat) : State :=
  match decodeTableWord nbits w with
  | some i => { s.start i with sched := if s.sched.isEmpty then [] else .engine :: s.sched }
  | none => { s with engine := .idle, sched := .write cmdAddr 4 (BitVec.ofNat 32 (w % 2 ^ nbits)) :: s.sched }

end Sys2Proof.Machine
end

