-- ==== Sys2Proof/Machine/HostProgram.lean ====
section
/-! DEFINITION. The host program forms of 30_encoding.md R96 and R97: each line and each pseudo-instruction as the list
of host accesses it expands to. Their offsets are from `BASE`. -/

namespace Sys2Proof.Machine

/-- The address of an offset in the host system's space (20_memory.md R70). -/
def busAddress (off : Addr) : Nat := Config.base + off.toNat

/-- `wr OFF, V` (R96). -/
def hostWr (off : Nat) (v : Word) : List Event := [.write (BitVec.ofNat 15 off) 4 v]

/-- `rd OFF` (R96). -/
def hostRd (off : Nat) : List Event := [.read (BitVec.ofNat 15 off) 4]

/-- `cmd MNEMONIC` (R96, R97). -/
def hostCmd (i : Instr) : List Event := hostWr 0x00C (encode i)

/-- `wait` (R97) in which `n` polls of STATUS read BUSY 1 before the one that reads 0 and ends the loop. How many they
are depends on the schedule; every `n` is a program (log entry 19). -/
def hostWait (n : Nat) : List Event := (List.replicate (n + 1) (hostRd 0x010)).flatten

/-- `ack` (R97). -/
def hostAck : List Event := hostWr 0x010 0x00000006#32

/-- `setf S, V` (R97). -/
def hostSetf (x : Nat) (v : Word) : List Event := hostWr (0x400 + 4 * x) v

/-- `rdnode I` (R97). -/
def hostRdnode (i : Nat) : List Event := hostRd (0x1000 + 16 * i) ++ hostRd (0x1004 + 16 * i) ++ hostRd (0x1008 + 16 * i)

/-- `rdcode S` (R97) for a code of `len` digits, which the host has from the first of the reads. DESIGN CHOICE (log entry
21), safe: for `len = 0`, where `(len-1) div 32` is no number of R9's, no CODE_BITS word is read. -/
def hostRdcode (x len : Nat) : List Event :=
  hostRd (0x4000 + 64 * x) ++ ((List.range ((len + 31) / 32)).map fun k => hostRd (0x4004 + 64 * x + 4 * k)).flatten

end Sys2Proof.Machine
end

