-- ==== Sys2Proof/Safety.lean ====
section
/-! DEFINITION. The terms claims are stated in: when a run is over (60_exceptions.md R188), the reachable states, the
order of the queue said without the machine's own search (40_tree_builder.md R111), paths in the tree
(41_code_table_generator.md R141), and the invariants of 10_state.md R51. -/

namespace Sys2Proof.Machine

/-- The run is over: no event is to come and `busy = 0` (60_exceptions.md R188). -/
def State.quiescent (s : State) : Bool := s.sched.isEmpty && !s.busy

/-- The spec's own state of `s`, with the model's three fields at their reset values: two states with equal `block`
differ in no state of the block. -/
def State.block (s : State) : State := { s with sched := [], resp := .none, draws := 0 }

/-- A state that some run from reset reaches, the host choosing its accesses as it goes: it may add events at any time,
and may choose them by what it has read. -/
inductive Reachable : State → Prop where
  | start : Reachable State.reset
  | addEvents (s : State) (es : List Event) : Reachable s → Reachable { s with sched := s.sched ++ es }
  | step (s t : State) : Reachable s → step s = .next t → Reachable t

/-! ### Host accesses and the engine's turn -/

/-- `n` steps lead from `s` to `t`, every one answering a next state. -/
def Steps : Nat → State → State → Prop
  | 0, s, t => t = s
  | n + 1, s, t => ∃ u, step s = .next u ∧ Steps n u t

/-- The event is a host access. -/
def Event.isAccess : Event → Bool
  | .read _ _ => true
  | .write _ _ _ => true
  | .engine => false
  | .reset => false

/-- In `s`, a host read of the word at byte offset `a` returns `w` and changes nothing. -/
def State.ReadsAs (s : State) (a : Nat) (w : Word) : Prop :=
  ∀ es, step { s with sched := .read (BitVec.ofNat 15 a) 4 :: es } = .next { s with sched := es, resp := .data w }

/-- In `s`, a host read of the word at byte offset `a` returns `w`, takes one draw (log entry 3) and changes nothing of
the block. -/
def State.DrawsAs (s : State) (a : Nat) (w : Word) : Prop :=
  ∀ es, step { s with sched := .read (BitVec.ofNat 15 a) 4 :: es } =
    .next { s with sched := es, resp := .data w, draws := s.draws + 1 }

/-- In `s`, a host write of the word `v` at byte offset `a` leaves `t` (but for the schedule and the port's answer). -/
def State.WritesTo (s : State) (a : Nat) (v : Word) (t : State) : Prop :=
  ∀ es, step { s with sched := .write (BitVec.ofNat 15 a) 4 v :: es } = .next { t with sched := es, resp := .written }

/-- The next step is the engine's. -/
def State.EngineMoves (s : State) : Prop := s.sched = [] ∨ ∃ es, s.sched = .engine :: es

/-- `s` after `set_err(e)` (10_state.md R36), written out. -/
def State.withFirstError (s : State) (e : ErrCode) : State :=
  { s with err := true, errCode := if s.err then s.errCode else e }

/-- The numbers of the error codes, as 60_exceptions.md R170 lists them. -/
def errNumber : ErrCode → Nat
  | .none => 0
  | .illegalCmd => 1
  | .busy => 2
  | .emptyInput => 3
  | .badSequence => 4
  | .weightOverflow => 5

/-- The numbers of the phases, as 10_state.md R33 lists them. -/
def phaseNumber : Phase → Nat
  | .empty => 0
  | .queued => 1
  | .built => 2
  | .coded => 3

/-- The commands `is` performed one after the other, each to its completion. -/
def runCommands : List Instr → State → Host.Outcome State Fault Refusal
  | [], s => .next s
  | i :: is, s =>
    match exec i s with
    | .next t => runCommands is t
    | .fault f => .fault f
    | .refused r => .refused r

/-! ### The queue's order -/

/-- `key(i) < key(j)` (40_tree_builder.md R111), on numbers. -/
def State.KeyLess (s : State) (i j : NodeId) : Prop :=
  (s.weightAt i).toNat < (s.weightAt j).toNat ∨ ((s.weightAt i).toNat = (s.weightAt j).toNat ∧ i.val < j.val)

/-- `a` is the element of `q` with the least key (40_tree_builder.md R111). -/
def State.IsLeast (s : State) (q : List NodeId) (a : NodeId) : Prop := a ∈ q ∧ ∀ j ∈ q, j ≠ a → s.KeyLess a j

/-- A MERGE in `s` has two nodes to take, and the sum of the two least weights is above `MAX_FREQ` (40_tree_builder.md
R113). -/
def State.OverflowsNext (s : State) : Prop :=
  s.phase = .queued ∧ ∃ a b, s.IsLeast s.pq a ∧ s.IsLeast (s.pq.erase a) b ∧
    (s.weightAt a).toNat + (s.weightAt b).toNat > 0xFFFFFFFF

/-! ### The tree -/

/-- The child of node `i` on the side of a digit: left for 0, right for 1 (41_code_table_generator.md R141). -/
def State.child (s : State) (i : Nat) (digit : Bool) : Nat :=
  if digit then (s.nodeAt i).right.toNat else (s.nodeAt i).left.toNat

/-- The path with these digits leads from node `i` down to node `l`, through internal nodes only. -/
def State.Leads (s : State) : Nat → List Bool → Nat → Prop
  | i, [], l => i = l
  | i, d :: ds, l => (s.nodeAt i).tag = .internal ∧ s.Leads (s.child i d) ds l

/-- The digits of a code, root first (10_state.md R31). -/
def Code.digits (c : Code) : List Bool := (List.range c.len.toNat).map c.bits.getLsbD

/-- How many links of allocated nodes name node `i`. -/
def State.parentCount (s : State) (i : Nat) : Nat :=
  (List.range s.nnode.toNat).countP (fun j => (s.nodeAt j).left.toNat == i) +
    (List.range s.nnode.toNat).countP (fun j => (s.nodeAt j).right.toNat == i)

/-- The sum of the weights of the leaves. -/
def State.leafTotal (s : State) : Nat := ((List.range s.nleaf.toNat).map fun i => (s.nodeAt i).weight.toNat).sum

/-- The sum of the weights of the queued nodes. -/
def State.queueTotal (s : State) : Nat := (s.pq.map fun i => (s.weightAt i).toNat).sum

/-- The sum of all frequencies. -/
def State.freqTotal (s : State) : Nat := ((List.range 256).map fun x => (s.freqAt x).toNat).sum

/-! ### Invariants (10_state.md R51) -/

/-- The storage arrays and the queue are in canonical form. -/
structure State.TablesOk (s : State) : Prop where
  freq : s.freq.wf 256 0
  node : s.node.wf 511 Node.zero
  code : s.code.wf 256 Code.zero
  pq : s.pq.Pairwise (· < ·)

/-- `err = 0` exactly when no code is recorded (10_state.md R36), and `done = 0` while busy (R35). -/
structure State.FlagsOk (s : State) : Prop where
  code : s.err = false ↔ s.errCode = .none
  done : s.busy = true → s.done = false

/-- An allocated leaf (10_state.md R25); its weight is a frequency of a present symbol, so not 0. -/
structure Node.LeafOk (n : Node) : Prop where
  valid : n.valid = true
  tag : n.tag = .leaf
  weight : n.weight ≠ 0
  left : n.left = Config.nil
  right : n.right = Config.nil

/-- Node `i` is an allocated internal node as 10_state.md R26 says, but for the sharing of children (`ForestOk`). -/
structure State.InternalOk (s : State) (i : Nat) : Prop where
  valid : (s.nodeAt i).valid = true
  tag : (s.nodeAt i).tag = .internal
  sym : (s.nodeAt i).sym = 0
  left : (s.nodeAt i).left.toNat < i
  right : (s.nodeAt i).right.toNat < i
  weight : (s.nodeAt i).weight.toNat =
    (s.nodeAt (s.nodeAt i).left.toNat).weight.toNat + (s.nodeAt (s.nodeAt i).right.toNat).weight.toNat

/-- The arena, the counts, the queue and the root agree with the phase (10_state.md R25 to R30, R51). -/
structure State.TreeOk (s : State) : Prop where
  leafCount : s.nleaf.toNat ≤ 256
  leafFirst : s.nleaf.toNat ≤ s.nnode.toNat
  leaves : ∀ i < s.nleaf.toNat, (s.nodeAt i).LeafOk
  symbols : ∀ j < s.nleaf.toNat, ∀ i < j, (s.nodeAt i).sym.toNat < (s.nodeAt j).sym.toNat
  internals : ∀ i < s.nnode.toNat, s.nleaf.toNat ≤ i → s.InternalOk i
  unallocated : ∀ i < 511, s.nnode.toNat ≤ i → s.nodeAt i = Node.zero
  members : ∀ i ∈ s.pq, i.val < s.nnode.toNat
  empty : s.phase = .empty → s.nleaf = 0 ∧ s.nnode = 0 ∧ s.pq = [] ∧ s.root = Config.nil
  queued : s.phase = .queued →
    1 ≤ s.nleaf.toNat ∧ s.nnode.toNat + s.pq.length = 2 * s.nleaf.toNat ∧ s.root = Config.nil ∧
      ∃ i ∈ s.pq, i.val + 1 = s.nnode.toNat
  finished : s.finished = true →
    1 ≤ s.nleaf.toNat ∧ s.nnode.toNat + 1 = 2 * s.nleaf.toNat ∧ s.pq = [] ∧ s.root.toNat + 1 = s.nnode.toNat

/-- Every allocated node has exactly one parent, but for the queued nodes and the root, which have none (10_state.md
R26, 40_tree_builder.md R117). -/
def State.ForestOk (s : State) : Prop :=
  ∀ i < s.nnode.toNat, s.parentCount i = if i ∈ s.pq.map Fin.val ∨ i = s.root.toNat then 0 else 1

/-- When node `k` was made, node `i` was there and no child of any node: it was queued. -/
def State.FreeBefore (s : State) (k i : NodeId) : Prop :=
  i < k ∧ ∀ j < k.val, (s.nodeAt j).left.toNat ≠ i.val ∧ (s.nodeAt j).right.toNat ≠ i.val

/-- The tree is built greedily (40_tree_builder.md R111, R113): the children of an internal node are the least and the
second least, by key, of the nodes that were queued when it was made. -/
def State.GreedyOk (s : State) : Prop :=
  ∀ k a b : NodeId, s.nleaf.toNat ≤ k.val → k.val < s.nnode.toNat → (s.nodeAt k).left.toNat = a.val →
    (s.nodeAt k).right.toNat = b.val →
    s.FreeBefore k a ∧ s.FreeBefore k b ∧ a ≠ b ∧
      ∀ i, s.FreeBefore k i → i ≠ a → s.KeyLess a i ∧ (i ≠ b → s.KeyLess b i)

/-- The weight invariant (10_state.md R51, 40_tree_builder.md R117). -/
structure State.WeightsOk (s : State) : Prop where
  queued : s.phase = .queued → s.queueTotal = s.leafTotal
  finished : s.finished = true → (s.nodeAt s.root.toNat).weight.toNat = s.leafTotal

/-- The code table is empty but in phase CODED, where it is the table that the walk of the tree derives. -/
structure State.CodesOk (s : State) : Prop where
  derived : s.phase = .coded → s.codeTable = .ok s.code
  none : s.phase ≠ .coded → s.code = []

/-- All of them. -/
structure State.Inv (s : State) : Prop where
  tables : s.TablesOk
  flags : s.FlagsOk
  tree : s.TreeOk
  forest : s.ForestOk
  greedy : s.GreedyOk
  weights : s.WeightsOk
  codes : s.CodesOk

end Sys2Proof.Machine
end

