-- ==== Sys2Proof/Certificates/Slice0/Obligations.lean ====
section
/-! DEFINITION. The statements for the provers. Each is about every state, or about every state that meets an
invariant of Sys2Proof/Safety.lean; none is about a program. -/

open Sys2Proof Sys2Proof.Machine

/-! ### Encoding (30_encoding.md) -/

/-- Words written out from the opcode map of R92, and words it leaves illegal (R94). -/
def Obligations.CommandWordsDecode : Prop :=
  decode 0x00000000#32 = .ok .nop ∧ decode 0x00000001#32 = .ok .clear ∧ decode 0x00000002#32 = .ok .pqInit ∧
  decode 0x00000003#32 = .ok .merge ∧ decode 0x00000004#32 = .ok .finish ∧ decode 0x00000005#32 = .ok .build ∧
  decode 0x00000006#32 = .ok .genCodes ∧ decodeBytes [0x05#8, 0x00#8, 0x00#8, 0x00#8] = .ok .build ∧
  decode 0x00000007#32 = .error .reservedOpcode ∧ decode 0x0000000F#32 = .error .reservedOpcode ∧
  decode 0x00000015#32 = .error .reservedBits

/-- R93: `decode` as a total function of the word. -/
def Obligations.DecodeMapsEveryWord : Prop :=
  ∀ v : Word,
    (v.toNat / 16 ≠ 0 → ∃ e, decode v = .error e) ∧
    (v.toNat / 16 = 0 →
      (v.toNat % 16 = 0 → decode v = .ok .nop) ∧ (v.toNat % 16 = 1 → decode v = .ok .clear) ∧
      (v.toNat % 16 = 2 → decode v = .ok .pqInit) ∧ (v.toNat % 16 = 3 → decode v = .ok .merge) ∧
      (v.toNat % 16 = 4 → decode v = .ok .finish) ∧ (v.toNat % 16 = 5 → decode v = .ok .build) ∧
      (v.toNat % 16 = 6 → decode v = .ok .genCodes) ∧ (7 ≤ v.toNat % 16 → ∃ e, decode v = .error e))

/-- The bytes that decode to a command are its encoding's bytes and no others. -/
def Obligations.DecodeBytesInvertsEncode : Prop :=
  ∀ (bs : List Byte) (i : Instr), decodeBytes bs = .ok i ↔ bs = encodeBytes i

/-! ### The step and the command in progress (60_exceptions.md R171, R172) -/

/-- A command word written to CMD while idle is in progress after that step, and stays so through any host accesses `hs`
that follow, which change none of its inputs; the engine's step after them is `exec` of the decoded command at the state
it then finds. That the engine moves by itself where no event is to come is the model's (DEDUCED, log entry 2). -/
def Obligations.StepRunsTheDecodedCommand : Prop :=
  ∀ (s : State) (v : Word) (i : Instr) (hs es : List Event),
    s.busy = false → decode v = .ok i → (∀ e ∈ hs, e.isAccess = true) → s.sched = .write 0x000C#15 4 v :: (hs ++ es) →
    ∃ t, step s = .next t ∧
      t = { s with done := false, engine := .running i, resp := .written, sched := hs ++ es } ∧
      ∃ u, Steps hs.length t u ∧ u.sched = es ∧ u.engine = .running i ∧ u.done = false ∧
        u.freq = s.freq ∧ u.node = s.node ∧ u.nleaf = s.nleaf ∧ u.nnode = s.nnode ∧ u.pq = s.pq ∧ u.root = s.root ∧
        u.code = s.code ∧ u.phase = s.phase ∧
        (es = [] → step u = exec i u) ∧
        (∀ es', es = .engine :: es' → step u = exec i { u with sched := es' })

/-- A row of the opcode table placed by `withFetchWord` runs in the very next step. What `withFetchWord` stands for is
the model's choice (DESIGN CHOICE, log entry 7). -/
def Obligations.PlacedTableWordRunsNext : Prop :=
  ∀ (s : State) (nbits w : Nat) (i : Instr),
    decodeTableWord nbits w = some i → step (s.withFetchWord nbits w) = exec i (s.start i)

/-- R171 and R42: what a write to CMD does (BUSY, then ILLEGAL_CMD, then acceptance), and that CMD reads 0. -/
def Obligations.CmdWriteAcceptsOrRecordsError : Prop :=
  ∀ (s : State) (v : Word),
    (s.busy = true → s.WritesTo 0x00C v (s.withFirstError .busy)) ∧
    (s.busy = false → v.toNat / 16 ≠ 0 ∨ 7 ≤ v.toNat % 16 → s.WritesTo 0x00C v (s.withFirstError .illegalCmd)) ∧
    (∀ i, s.busy = false → v = encode i → s.WritesTo 0x00C v { s with done := false, engine := .running i }) ∧
    s.ReadsAs 0x00C 0

/-! ### Host accesses (20_memory.md, 10_state.md) -/

/-- R62, R63, R64: an access that is not one aligned word ends in a bus error and changes no state. -/
def Obligations.BusErrorChangesNoState : Prop :=
  ∀ (s : State) (a : Addr) (n : Nat) (v : Word) (es : List Event),
    a.toNat % 4 ≠ 0 ∨ n ≠ 4 →
    (s.sched = .read a n :: es ∨ s.sched = .write a n v :: es) →
    step s = .next { s with sched := es, resp := .busError }

/-- An idle read has no side effect, and its word depends on the block's state alone. -/
def Obligations.IdleReadIsRepeatable : Prop :=
  ∀ (s : State) (a : Addr), s.busy = false → a.toNat % 4 = 0 →
    ∃ w, ∀ s' : State, s'.block = s.block → s'.ReadsAs a.toNat w

/-- R39, R40: ID and PARAM read their constants in every state, and writes to them are ignored. -/
def Obligations.IdAndParamAreConstant : Prop :=
  ∀ s : State,
    s.ReadsAs 0x000 0x46465548#32 ∧ (List.range 4).map (byteLane 0x46465548#32) = [0x48#8, 0x55#8, 0x46#8, 0x46#8] ∧
    s.ReadsAs 0x004 0x00FF2008#32 ∧ (8 + 256 * 32 + 65536 * 255 = (0x00FF2008#32).toNat) ∧
    (∀ v, s.WritesTo 0x000 v s ∧ s.WritesTo 0x004 v s)

/-- R41: CTRL, busy or not. -/
def Obligations.CtrlHoldsInterruptEnable : Prop :=
  ∀ (s : State) (v : Word),
    s.WritesTo 0x008 v { s with ie := v.getLsbD 0 } ∧
    s.ReadsAs 0x008 (if s.ie then 1 else 0) ∧ State.reset.ie = false

/-- R43, R37: STATUS as an idle read gives it, as a busy read gives it, and as a write changes it. -/
def Obligations.StatusFieldsAndW1C : Prop :=
  (∀ s : State, s.busy = false → ∃ w, s.ReadsAs 0x010 w ∧
    w.toNat = 2 * s.done.toNat + 4 * s.err.toNat +
      8 * (if (s.phase = .built ∨ s.phase = .coded) ∧ (s.nodeAt s.root.toNat).tag = .leaf then 1 else 0) +
      256 * errNumber s.errCode + 65536 * phaseNumber s.phase) ∧
  (∀ s : State, s.busy = true → ∃ w, s.DrawsAs 0x010 w ∧
    w.getLsbD 0 = true ∧ w.getLsbD 1 = s.done ∧ w.getLsbD 2 = s.err ∧ w.toNat / 16 % 16 = 0 ∧
    w.toNat / 256 % 16 = errNumber s.errCode ∧ w.toNat / 4096 % 16 = 0 ∧ w.toNat / 262144 = 0) ∧
  (∀ (s : State) (v : Word), s.WritesTo 0x010 v
    { s with
      done := s.done && !v.getLsbD 1
      err := s.err && !v.getLsbD 2
      errCode := if v.getLsbD 2 then .none else s.errCode }) ∧
  State.reset.busy = true ∧ State.reset.done = false ∧ State.reset.err = false ∧ State.reset.errCode = .none ∧
  State.reset.degen = false ∧ State.reset.phase = .empty

/-- R44, R45, R46: ROOT, COUNTS and PQCOUNT. -/
def Obligations.RootCountsPqcountRead : Prop :=
  ∀ s : State,
    (s.busy = false → ∃ w, s.ReadsAs 0x014 w ∧ w.toNat = s.root.toNat) ∧
    (s.busy = false → s.TreeOk → s.finished = false → s.ReadsAs 0x014 0x000001FF#32) ∧
    (s.busy = false → ∃ w, s.ReadsAs 0x018 w ∧ w.toNat = s.nleaf.toNat + 65536 * s.nnode.toNat) ∧
    (s.busy = false → s.TreeOk → ∃ w, s.ReadsAs 0x01C w ∧ w.toNat = s.pq.length ∧ s.pq.length ≤ 256) ∧
    (∀ v, s.WritesTo 0x014 v s ∧ s.WritesTo 0x018 v s ∧ s.WritesTo 0x01C v s)

/-- R47, R66: the FREQ window. -/
def Obligations.FreqWindowReadsAndWrites : Prop :=
  ∀ (s : State) (x : Nat) (v : Word), x < 256 →
    (s.busy = false → s.ReadsAs (0x400 + 4 * x) (s.freqAt x)) ∧
    (s.busy = true → s.WritesTo (0x400 + 4 * x) v (s.withFirstError .busy)) ∧
    (s.busy = false → s.TablesOk → ∃ t, s.WritesTo (0x400 + 4 * x) v t ∧ t.freqAt x = v ∧
      (∀ y, y ≠ x → t.freqAt y = s.freqAt y) ∧ { t with freq := s.freq } = s)

/-- R48: the NODE window. -/
def Obligations.NodeWindowWords : Prop :=
  ∀ (s : State) (i : Nat), i < 512 →
    (∀ k < 4, ∀ v, s.WritesTo (0x1000 + 16 * i + 4 * k) v s) ∧
    (s.busy = false →
      s.ReadsAs (0x1000 + 16 * i) (s.nodeAt i).weight ∧
      (∃ w, s.ReadsAs (0x1004 + 16 * i) w ∧
        w.toNat = 2147483648 * (s.nodeAt i).valid.toNat +
          1073741824 * (if (s.nodeAt i).tag = .internal then 1 else 0) + (s.nodeAt i).sym.toNat) ∧
      (∃ w, s.ReadsAs (0x1008 + 16 * i) w ∧
        w.toNat = (s.nodeAt i).left.toNat + 65536 * (s.nodeAt i).right.toNat) ∧
      s.ReadsAs (0x100C + 16 * i) 0 ∧
      (s.TreeOk → i < s.nleaf.toNat → s.ReadsAs (0x1008 + 16 * i) 0x01FF01FF#32) ∧
      (i = 511 ∨ (s.TreeOk ∧ s.nnode.toNat ≤ i) → ∀ k < 4, s.ReadsAs (0x1000 + 16 * i + 4 * k) 0))

/-- R49: the CODE window. -/
def Obligations.CodeWindowWords : Prop :=
  ∀ (s : State) (x : Nat), x < 256 →
    (∀ k < 16, ∀ v, s.WritesTo (0x4000 + 64 * x + 4 * k) v s) ∧
    (s.busy = false → ∃ w : Nat → Word,
      (∀ k < 16, s.ReadsAs (0x4000 + 64 * x + 4 * k) (w k)) ∧
      (w 0).toNat = 2147483648 * (s.codeAt x).valid.toNat + (s.codeAt x).len.toNat ∧
      (∀ j < 256, (w (1 + j / 32)).getLsbD (j % 32) = (s.codeAt x).bits.getLsbD j) ∧
      (∀ k, 9 ≤ k → k < 16 → w k = 0))

/-- The reserved offsets of R60 read 0 and ignore writes, busy or not. That they read 0 while busy as well is the
model's reading of R65 and R68 (DEDUCED, log entry 17). -/
def Obligations.ReservedOffsetsReadZeroAndIgnoreWrites : Prop :=
  ∀ (s : State) (a : Nat), a % 4 = 0 →
    (0x0020 ≤ a ∧ a < 0x0400) ∨ (0x0800 ≤ a ∧ a < 0x1000) ∨ (0x3000 ≤ a ∧ a < 0x4000) →
    s.ReadsAs a 0 ∧ ∀ v, s.WritesTo a v s

/-- Reads while `busy = 1`, exact or a draw, without side effect on the block (20_memory.md R68). R68 says of a draw only
that it is any value: that it is `Config.draw` of the counter `draws`, that it advances the counter, and that DEGEN and
PHASE show bits of one draw word, is the model's choice (DESIGN CHOICE, log entries 3 and 20). -/
def Obligations.BusyReadsAreExactOrDraws : Prop :=
  ∀ s : State, s.busy = true →
    s.ReadsAs 0x000 0x46465548#32 ∧ s.ReadsAs 0x004 0x00FF2008#32 ∧ s.ReadsAs 0x008 (if s.ie then 1 else 0) ∧
    s.ReadsAs 0x00C 0 ∧
    (∃ w, s.DrawsAs 0x010 w ∧ w.getLsbD 0 = true ∧ w.getLsbD 1 = s.done ∧ w.getLsbD 2 = s.err ∧
      w.toNat / 256 % 16 = errNumber s.errCode ∧
      w.toNat / 16 % 16 = 0 ∧ w.toNat / 4096 % 16 = 0 ∧ w.toNat / 262144 = 0 ∧
      w.getLsbD 3 = (Config.draw s.draws).getLsbD 3 ∧ w.toNat / 65536 % 4 = (Config.draw s.draws).toNat / 65536 % 4) ∧
    (∀ a, a % 4 = 0 →
      a = 0x014 ∨ a = 0x018 ∨ a = 0x01C ∨ (0x0400 ≤ a ∧ a < 0x0800) ∨ (0x1000 ≤ a ∧ a < 0x3000) ∨
        (0x4000 ≤ a ∧ a < 0x8000) →
      s.DrawsAs a (Config.draw s.draws))

/-- What R68 makes exact while `busy = 1` does not depend on the tables, the counters, the queue, the root, the phase, the
command in progress or the draws taken: in two busy states that agree in `ie`, `done`, `err` and `err_code`, reads of ID,
PARAM, CTRL and CMD return one and the same word, and reads of STATUS differ at most in DEGEN and PHASE. Nothing is said
of a draw. -/
def Obligations.BusyExactReadsRevealNoTable : Prop :=
  ∀ (s s' : State) (a : Addr) (es es' : List Event),
    s.busy = true → s'.busy = true → s.sched = .read a 4 :: es → s'.sched = .read a 4 :: es' →
    s.ie = s'.ie → s.done = s'.done → s.err = s'.err → s.errCode = s'.errCode →
    a = 0x0000#15 ∨ a = 0x0004#15 ∨ a = 0x0008#15 ∨ a = 0x000C#15 ∨ a = 0x0010#15 →
    ∃ t t' w w', step s = .next t ∧ step s' = .next t' ∧ t.resp = .data w ∧ t'.resp = .data w' ∧
      (a ≠ 0x0010#15 → w = w') ∧ (∀ j, j ≠ 3 → j ≠ 16 → j ≠ 17 → w.getLsbD j = w'.getLsbD j)

/-! ### Flags, interrupt, reset: rules over every step -/

/-- R32: only a write to CTRL and reset change `ie`. -/
def Obligations.IeChangesOnlyByCtrlOrReset : Prop :=
  ∀ s t : State, step s = .next t →
    (∀ v es, s.sched ≠ .write 0x0008#15 4 v :: es) → (∀ es, s.sched ≠ .reset :: es) → t.ie = s.ie

/-- A recorded error keeps its code until reset or a W1C of STATUS bit 2 (10_state.md R36, 60_exceptions.md R174). -/
def Obligations.FirstErrorIsKept : Prop :=
  ∀ s t : State, step s = .next t → s.err = true →
    (∀ v es, v.getLsbD 2 = true → s.sched ≠ .write 0x0010#15 4 v :: es) → (∀ es, s.sched ≠ .reset :: es) →
    t.err = true ∧ t.errCode = s.errCode

/-- When `done` rises and when it falls (10_state.md R35, 70_reset_and_hazards.md R200, R208). -/
def Obligations.DoneRisesAndFallsOnlyAsStated : Prop :=
  ∀ s t : State, s.FlagsOk → step s = .next t →
    (s.done = false → t.done = true →
      s.EngineMoves ∧ (∃ i, s.engine = .running i) ∧ t.busy = false ∧ t.err = s.err ∧ t.errCode = s.errCode) ∧
    (s.done = true → t.done = false →
      (∃ i es, s.busy = false ∧ s.sched = .write 0x000C#15 4 (encode i) :: es) ∨
      (∃ v es, v.getLsbD 1 = true ∧ s.sched = .write 0x0010#15 4 v :: es) ∨ (∃ es, s.sched = .reset :: es))

/-- A frequency changes only by an idle write to its word of the FREQ window, by CLEAR, and by reset with its clearing
period (10_state.md R23). That `freq` is 0 from the start of the clearing period on, and not at its end only, is the
model's choice (DESIGN CHOICE, log entry 6). -/
def Obligations.FreqChangesOnlyByHostClearOrReset : Prop :=
  ∀ (s t : State) (x : Nat), s.TablesOk → step s = .next t → t.freqAt x ≠ s.freqAt x →
    (∃ v es, x < 256 ∧ s.busy = false ∧ s.sched = .write (BitVec.ofNat 15 (0x400 + 4 * x)) 4 v :: es ∧ t.freqAt x = v) ∨
    (s.EngineMoves ∧ (s.engine = .running .clear ∨ s.engine = .clearing) ∧ t.freqAt x = 0) ∨
    ((∃ es, s.sched = .reset :: es) ∧ t.freqAt x = 0)

/-- But for reset, the tree, the queue, the code table and the phase change only by the engine's step of a busy block:
never by a host access (20_memory.md R66, R77, 70_reset_and_hazards.md R209, R210). -/
def Obligations.HostAccessesNeverChangeTheTree : Prop :=
  ∀ s t : State, step s = .next t → (∀ es, s.sched ≠ .reset :: es) → ¬ (s.EngineMoves ∧ s.busy = true) →
    t.node = s.node ∧ t.code = s.code ∧ t.nleaf = s.nleaf ∧ t.nnode = s.nnode ∧ t.pq = s.pq ∧ t.root = s.root ∧
      t.phase = s.phase

/-- Every completion clears `busy` and leaves `done` or `err` set, so that `irq` is then `ie` (60_exceptions.md R172,
R177, R180). -/
def Obligations.CompletionClearsBusyAndRaisesIrq : Prop :=
  ∀ (i : Instr) (s t : State), exec i s = .next t →
    t.busy = false ∧ t.ie = s.ie ∧ (t.done = true ∨ t.err = true) ∧ t.irq = s.ie

/-- R38: the interrupt output in every state; then each way that 60_exceptions.md R180 names to set and to clear it:
acknowledgement by W1C of DONE and ERR, CTRL.IE, acceptance of a command, a dropped or illegal CMD write, a dropped FREQ
write, a completion, and reset. -/
def Obligations.IrqIsEnableAndPending : Prop :=
  (∀ s : State, s.irq = true ↔ s.ie = true ∧ (s.done = true ∨ s.err = true)) ∧
  (∀ (s : State) (v : Word), ∃ t, s.WritesTo 0x010 v t ∧
    (t.irq = true ↔ s.ie = true ∧ ((s.done = true ∧ v.getLsbD 1 = false) ∨ (s.err = true ∧ v.getLsbD 2 = false)))) ∧
  (∀ (s : State) (v : Word), ∃ t, s.WritesTo 0x008 v t ∧
    (t.irq = true ↔ v.getLsbD 0 = true ∧ (s.done = true ∨ s.err = true))) ∧
  (∀ (s : State) (i : Instr), s.busy = false → ∃ t, s.WritesTo 0x00C (encode i) t ∧
    (t.irq = true ↔ s.ie = true ∧ s.err = true)) ∧
  (∀ (s : State) (v : Word), s.busy = true ∨ (∀ i, v ≠ encode i) → ∃ t, s.WritesTo 0x00C v t ∧ t.irq = s.ie) ∧
  (∀ (s : State) (x : Nat) (v : Word), x < 256 → s.busy = true → ∃ t, s.WritesTo (0x400 + 4 * x) v t ∧ t.irq = s.ie) ∧
  (∀ (i : Instr) (s t : State), exec i s = .next t → t.irq = s.ie) ∧
  (∀ (s : State) (es : List Event), s.sched = .reset :: es → ∃ t, step s = .next t ∧ t.irq = false)

/-- Reset from any state, whatever was in progress, gives one and the same state of the block, with `busy = 1`, the
flags and `ie` 0, `irq` 0 and phase EMPTY (70_reset_and_hazards.md R200, R201, R202). That the tables have one value
inside the clearing period is the model's choice (DESIGN CHOICE, log entry 6). -/
def Obligations.ResetAbandonsEverything : Prop :=
  ∀ (s : State) (es : List Event), s.sched = .reset :: es →
    ∃ t, step s = .next t ∧ t.busy = true ∧ t.engine = .clearing ∧ t.done = false ∧ t.err = false ∧
      t.errCode = .none ∧ t.ie = false ∧ t.irq = false ∧ t.phase = .empty ∧ t.sched = es ∧
      ∀ s' es', s'.sched = .reset :: es' → ∃ t', step s' = .next t' ∧ t'.block = t.block

/-- R201's end of the clearing period: `busy` falls, every table, counter and flag has its reset value, `ie`, `err` and
`err_code` keep what they hold. -/
def Obligations.ClearingPeriodEnds : Prop :=
  ∀ s : State, s.engine = .clearing → s.EngineMoves →
    ∃ t, step s = .next t ∧ t.busy = false ∧ (∀ x, t.freqAt x = 0) ∧ (∀ i, t.nodeAt i = Node.zero) ∧
      (∀ x, t.codeAt x = Code.zero) ∧ t.nleaf = 0 ∧ t.nnode = 0 ∧ t.pq = [] ∧ t.root = 0x1FF#9 ∧ t.phase = .empty ∧
      t.done = false ∧ t.ie = s.ie ∧ t.err = s.err ∧ t.errCode = s.errCode ∧ t.resp = s.resp ∧ t.draws = s.draws

/-- R50: the state after reset with no host access during the clearing period. -/
def Obligations.ResetValuesAfterClearing : Prop :=
  State.reset.busy = true ∧
  ∃ t, step State.reset = .next t ∧ t.busy = false ∧ (∀ x, t.freqAt x = 0) ∧ (∀ i, t.nodeAt i = Node.zero) ∧
    (∀ x, t.codeAt x = Code.zero) ∧ t.nleaf = 0 ∧ t.nnode = 0 ∧ t.pq = [] ∧ t.root = 0x1FF#9 ∧ t.phase = .empty ∧
    t.ie = false ∧ t.done = false ∧ t.err = false ∧ t.errCode = .none ∧ t.irq = false

/-- Both orders of a W1C of DONE and a completion: before it, `done` stays 1; after it, `done` is 0 (60_exceptions.md
R181). -/
def Obligations.W1COfDoneRacesCompletionBothWays : Prop :=
  ∀ (s : State) (i : Instr), s.engine = .running i → (∃ u, exec i s = .next u ∧ u.done = true) →
    s.done = false →
    (∃ u t, step { s with sched := [.write 0x0010#15 4 0x2#32, .engine] } = .next u ∧ step u = .next t ∧
      t.done = true) ∧
    (∃ u t, step { s with sched := [.engine, .write 0x0010#15 4 0x2#32] } = .next u ∧ step u = .next t ∧
      t.done = false)

/-! ### What a command leaves alone, whichever it is -/

/-- The frame of all seven commands. -/
def Obligations.CommandFrame : Prop :=
  ∀ (i : Instr) (s t : State), exec i s = .next t →
    t.ie = s.ie ∧ t.sched = s.sched ∧ t.resp = s.resp ∧ t.draws = s.draws ∧
    (i ≠ .clear → t.freq = s.freq) ∧
    (i = .nop ∨ i = .merge ∨ i = .finish → t.code = s.code) ∧
    (i = .nop ∨ i = .finish ∨ i = .genCodes → t.node = s.node ∧ t.nleaf = s.nleaf ∧ t.nnode = s.nnode) ∧
    (i = .nop ∨ i = .genCodes → t.pq = s.pq ∧ t.root = s.root) ∧
    (i = .nop ∨ i = .merge → t.phase = s.phase) ∧
    (i = .merge → t.nleaf = s.nleaf ∧ t.root = s.root) ∧
    (i = .nop ∨ i = .clear ∨ s.err = true → t.err = s.err ∧ t.errCode = s.errCode)

/-- A command other than BUILD that raises an error (it ends with `done` still 0) has written nothing but the error
(60_exceptions.md R173). -/
def Obligations.RaisingCommandWritesOnlyTheError : Prop :=
  ∀ (i : Instr) (s t : State), i ≠ .build → s.done = false → exec i s = .next t → t.done = false →
    ∃ e, e ≠ .none ∧ t = { s.withFirstError e with engine := .idle }

/-! ### NOP and CLEAR (42_control.md) -/

/-- R160: NOP. -/
def Obligations.NopOnlySetsDone : Prop :=
  decode 0x00000000#32 = .ok .nop ∧
  ∀ s : State, exec .nop s = .next { s with engine := .idle, done := true }

/-- R161: CLEAR, in every phase. -/
def Obligations.ClearLeavesResetValues : Prop :=
  decode 0x00000001#32 = .ok .clear ∧
  ∀ s : State, ∃ t, exec .clear s = .next t ∧ (∀ x, t.freqAt x = 0) ∧ (∀ i, t.nodeAt i = Node.zero) ∧
    (∀ x, t.codeAt x = Code.zero) ∧ t.nleaf = 0 ∧ t.nnode = 0 ∧ t.pq = [] ∧ t.root = 0x1FF#9 ∧ t.phase = .empty ∧
    t.done = true ∧ t.busy = false ∧ t.ie = s.ie ∧ t.err = s.err ∧ t.errCode = s.errCode ∧
    t.block = { State.reset.block with engine := .idle, done := true, ie := s.ie, err := s.err, errCode := s.errCode }

/-! ### The tree builder (40_tree_builder.md) -/

/-- R111: the queue's least element exists and is unique, and the search finds it. -/
def Obligations.ArgminKeyFindsTheLeast : Prop :=
  ∀ (s : State) (q : List NodeId),
    (∀ a, s.argminKey q = some a ↔ s.IsLeast q a) ∧ (q ≠ [] → ∃! a, s.IsLeast q a)

/-- R112: PQ_INIT, in every phase, for `S` the ascending list of the present symbols. -/
def Obligations.PqInitQueuesOneLeafPerPresentSymbol : Prop :=
  decode 0x00000002#32 = .ok .pqInit ∧
  ∀ (s : State) (S : List Nat), S.Pairwise (· < ·) → (∀ x, x ∈ S ↔ x < 256 ∧ s.freqAt x ≠ 0) →
    (S = [] → exec .pqInit s = .next { s.withFirstError .emptyInput with engine := .idle }) ∧
    (S ≠ [] → ∃ t, exec .pqInit s = .next t ∧
      (∀ (j : Nat) (h : j < S.length), t.nodeAt j = ⟨true, .leaf, s.freqAt S[j], BitVec.ofNat 8 S[j], 0x1FF#9, 0x1FF#9⟩) ∧
      (∀ j, S.length ≤ j → t.nodeAt j = Node.zero) ∧ (∀ x, t.codeAt x = Code.zero) ∧
      t.nleaf.toNat = S.length ∧ t.nnode.toNat = S.length ∧ (∀ i, i ∈ t.pq ↔ i.val < S.length) ∧
      t.pq.length = S.length ∧ t.root = 0x1FF#9 ∧ t.phase = .queued ∧ t.degen = false ∧
      t.done = true ∧ t.busy = false ∧
      { t with node := s.node, code := s.code, nleaf := s.nleaf, nnode := s.nnode, pq := s.pq, root := s.root,
               phase := s.phase, engine := s.engine, done := s.done } = s)

/-- R113: MERGE. `a` and `b` are the two least nodes of the queue in extraction order; the new node `k` is `nnode`. -/
def Obligations.MergeJoinsTheTwoLeastNodes : Prop :=
  decode 0x00000003#32 = .ok .merge ∧
  ∀ s : State,
    (s.phase ≠ .queued ∨ s.pq.length < 2 →
      exec .merge s = .next { s.withFirstError .badSequence with engine := .idle }) ∧
    (∀ a b, s.phase = .queued → s.IsLeast s.pq a → s.IsLeast (s.pq.erase a) b →
      (s.weightAt a).toNat + (s.weightAt b).toNat > 0xFFFFFFFF →
      exec .merge s = .next { s.withFirstError .weightOverflow with engine := .idle }) ∧
    (∀ a b, s.TablesOk → s.TreeOk → s.phase = .queued → s.IsLeast s.pq a → s.IsLeast (s.pq.erase a) b →
      (s.weightAt a).toNat + (s.weightAt b).toNat ≤ 0xFFFFFFFF →
      a ≠ b ∧ s.nnode.toNat ≤ 510 ∧
      ∃ t, exec .merge s = .next t ∧
        t.nodeAt s.nnode.toNat = ⟨true, .internal, s.weightAt a + s.weightAt b, 0, BitVec.ofNat 9 a, BitVec.ofNat 9 b⟩ ∧
        ((s.weightAt a + s.weightAt b).toNat = (s.weightAt a).toNat + (s.weightAt b).toNat) ∧
        (∀ i, i ≠ s.nnode.toNat → t.nodeAt i = s.nodeAt i) ∧
        t.nnode.toNat = s.nnode.toNat + 1 ∧
        (∀ i : NodeId, i ∈ t.pq ↔ (i ∈ s.pq ∧ i ≠ a ∧ i ≠ b) ∨ i.val = s.nnode.toNat) ∧
        t.pq.length + 1 = s.pq.length ∧ t.done = true ∧ t.busy = false ∧
        { t with node := s.node, nnode := s.nnode, pq := s.pq, engine := s.engine, done := s.done } = s)

/-- R114: FINISH. -/
def Obligations.FinishMakesTheLastNodeTheRoot : Prop :=
  decode 0x00000004#32 = .ok .finish ∧
  ∀ s : State,
    (s.phase ≠ .queued ∨ s.pq.length ≠ 1 →
      exec .finish s = .next { s.withFirstError .badSequence with engine := .idle }) ∧
    (∀ r, s.phase = .queued → s.pq = [r] →
      ∃ t, exec .finish s = .next t ∧
        t = { s with root := BitVec.ofNat 9 r, pq := [], phase := .built, engine := .idle, done := true } ∧
        t.root.toNat = r.val ∧
        (t.degen = true ↔ (t.nodeAt r).tag = .leaf) ∧
        (s.TreeOk → r.val + 1 = s.nnode.toNat ∧ (t.degen = true ↔ s.nleaf.toNat = 1)))

/-- BUILD of a non-empty table whose total fits a weight: it completes with a finished tree that has one leaf per
present symbol, the forest shape, the total at the root, and the greedy order: each internal node joins the two least of
the nodes that were queued when it was made (R111, R113, R115, R117). -/
def Obligations.BuildGivesTheHuffmanTree : Prop :=
  ∀ s : State, (∃ x, x < 256 ∧ s.freqAt x ≠ 0) → s.freqTotal ≤ 0xFFFFFFFF →
    ∃ t, exec .build s = .next t ∧ t.done = true ∧ t.busy = false ∧ t.phase = .built ∧ t.TreeOk ∧ t.ForestOk ∧
      t.GreedyOk ∧ (t.nodeAt t.root.toNat).weight.toNat = s.freqTotal ∧
      (∀ x, (x < 256 ∧ s.freqAt x ≠ 0) ↔
        ∃ l, l < t.nleaf.toNat ∧ (t.nodeAt l).sym.toNat = x ∧ (t.nodeAt l).weight = s.freqAt x) ∧
      (∀ x, t.codeAt x = Code.zero) ∧
      { t with node := s.node, code := s.code, nleaf := s.nleaf, nnode := s.nnode, pq := s.pq, root := s.root,
               phase := s.phase, engine := s.engine, done := s.done } = s

/-- BUILD of an empty table raises EMPTY_INPUT and writes nothing (R115, R112). -/
def Obligations.BuildOfEmptyTableRaisesEmptyInput : Prop :=
  decode 0x00000005#32 = .ok .build ∧
  ∀ s : State, (∀ x, x < 256 → s.freqAt x = 0) →
    exec .build s = .next { s.withFirstError .emptyInput with engine := .idle }

/-- BUILD of a non-empty table, whatever its total. If PQ_INIT and some number of MERGEs lead to a queued state `u` whose
two least nodes overflow, BUILD ends in `u` with WEIGHT_OVERFLOW, still in phase QUEUED, both nodes still queued. If there
is no such number, BUILD ends where PQ_INIT, a MERGE for each further leaf, and FINISH end, with the tree finished. In
either case there is one such end, and the overflow is met before the last leaf is merged (R115, 60_exceptions.md R173). -/
def Obligations.BuildFinishesOrStopsAtAnOverflow : Prop :=
  ∀ s : State, (∃ x, x < 256 ∧ s.freqAt x ≠ 0) →
    (∀ m u, runCommands (.pqInit :: List.replicate m .merge) s = .next u → u.OverflowsNext →
      exec .build s = .next { u.withFirstError .weightOverflow with done := s.done } ∧ u.TreeOk ∧ u.root = 0x1FF#9) ∧
    ((∀ m u, runCommands (.pqInit :: List.replicate m .merge) s = .next u → ¬ u.OverflowsNext) →
      ∃ t, exec .build s = .next t ∧
        runCommands (.pqInit :: (List.replicate (s.present.length - 1) .merge ++ [.finish])) s = .next t ∧
        t.phase = .built ∧ t.done = true ∧ t.err = s.err ∧ t.errCode = s.errCode) ∧
    ((∃ m u, runCommands (.pqInit :: List.replicate m .merge) s = .next u ∧ u.OverflowsNext) →
      ∃ m u, runCommands (.pqInit :: List.replicate m .merge) s = .next u ∧ u.OverflowsNext ∧
        m + 1 < s.present.length ∧ u.nnode.toNat = u.nleaf.toNat + m ∧ u.err = s.err ∧ u.errCode = s.errCode)

/-- BUILD is PQ_INIT, a MERGE for each further leaf, and FINISH, to the last bit of the state (R115's example, D14). -/
def Obligations.BuildEqualsItsSteps : Prop :=
  ∀ s : State, (∃ x, x < 256 ∧ s.freqAt x ≠ 0) → s.freqTotal ≤ 0xFFFFFFFF →
    exec .build s = runCommands (.pqInit :: (List.replicate (s.present.length - 1) .merge ++ [.finish])) s

/-! ### The code-table generator (41_code_table_generator.md) -/

/-- GEN_CODES without a finished tree raises BAD_SEQUENCE and writes nothing (R140). -/
def Obligations.GenCodesNeedsAFinishedTree : Prop :=
  decode 0x00000006#32 = .ok .genCodes ∧
  ∀ s : State, s.phase = .empty ∨ s.phase = .queued →
    exec .genCodes s = .next { s.withFirstError .badSequence with engine := .idle }

/-- GEN_CODES with a finished tree completes, and writes nothing but the code table, the phase and the flags (R140). -/
def Obligations.GenCodesCompletesOnAFinishedTree : Prop :=
  ∀ s : State, s.TreeOk → s.phase = .built ∨ s.phase = .coded →
    ∃ t, exec .genCodes s = .next t ∧ t.phase = .coded ∧ t.done = true ∧ t.busy = false ∧ t.degen = s.degen ∧
      { t with code := s.code, phase := s.phase, engine := s.engine, done := s.done } = s

/-- R141, R142: the code of a leaf is the path from the root to it, of length at most `nleaf - 1`, and no bit at or above
its length is 1. -/
def Obligations.CodesAreRootToLeafPaths : Prop :=
  ∀ s t : State, s.TreeOk → s.ForestOk → s.finished = true → exec .genCodes s = .next t →
    ∀ l, l < s.nleaf.toNat →
      (t.codeAt (s.nodeAt l).sym.toNat).valid = true ∧
      t.Leads t.root.toNat (t.codeAt (s.nodeAt l).sym.toNat).digits l ∧
      (t.codeAt (s.nodeAt l).sym.toNat).len.toNat + 1 ≤ s.nleaf.toNat ∧
      ∀ k, (t.codeAt (s.nodeAt l).sym.toNat).len.toNat ≤ k → (t.codeAt (s.nodeAt l).sym.toNat).bits.getLsbD k = false

/-- A symbol that is no leaf of the tree has an all-zero entry after GEN_CODES (R144). -/
def Obligations.SymbolsOutsideTheTreeGetNoCode : Prop :=
  ∀ s t : State, s.TreeOk → s.finished = true → exec .genCodes s = .next t →
    ∀ x, (∀ l, l < s.nleaf.toNat → (s.nodeAt l).sym.toNat ≠ x) → t.codeAt x = Code.zero

/-- The degenerate tree: DEGEN reads 1 and the one symbol's code is empty (R143). -/
def Obligations.DegenerateTreeHasTheEmptyCode : Prop :=
  ∀ s : State, s.TreeOk → s.finished = true → s.nleaf.toNat = 1 →
    s.degen = true ∧ ∃ t, exec .genCodes s = .next t ∧ t.degen = true ∧
      t.codeAt (s.nodeAt 0).sym.toNat = ⟨true, 0, 0⟩

/-- R145: with two or more leaves every valid code is non-empty, and no valid code is a prefix of another. -/
def Obligations.CodesArePrefixFree : Prop :=
  ∀ s t : State, s.TreeOk → s.finished = true → 2 ≤ s.nleaf.toNat → exec .genCodes s = .next t →
    ∀ x y, x < 256 → y < 256 → (t.codeAt x).valid = true → (t.codeAt y).valid = true →
      1 ≤ (t.codeAt x).len.toNat ∧ (x ≠ y → ¬ (t.codeAt x).digits <+: (t.codeAt y).digits)

/-- GEN_CODES again gives the same state (R140). -/
def Obligations.GenCodesIsIdempotent : Prop :=
  ∀ s t : State, exec .genCodes s = .next t → exec .genCodes t = .next t

/-! ### Invariants that every step keeps (10_state.md R51) -/

/-- Every invariant holds right after reset, the tables holding their reset values from the start of the clearing period
on (DESIGN CHOICE, log entry 6), in the canonical form that is the model's (DESIGN CHOICE, log entries 8 and 9). -/
def Obligations.ResetMeetsEveryInvariant : Prop := State.reset.Inv

/-- The arrays and the queue stay in canonical form: indices in the ranges of 10_state.md R23, R24, R29 and R31, no
entry held twice. That an array is a list of cells with rising indices, no cell equal to the value of an unlisted one, and
that the queue is a rising list, is the model's choice (DESIGN CHOICE, log entries 8 and 9). -/
def Obligations.StepKeepsTablesCanonical : Prop :=
  ∀ s t : State, s.TablesOk → step s = .next t → t.TablesOk

/-- `err` and `err_code` stay consistent, and `done` is 0 while busy. -/
def Obligations.StepKeepsFlagsConsistent : Prop :=
  ∀ s t : State, s.FlagsOk → step s = .next t → t.FlagsOk

/-- The arena, counts, queue and root stay consistent with the phase. -/
def Obligations.StepKeepsTheTree : Prop :=
  ∀ s t : State, s.TablesOk → s.TreeOk → step s = .next t → t.TreeOk

/-- No node ever has two parents, and only queued nodes and the root have none. -/
def Obligations.StepKeepsTheForest : Prop :=
  ∀ s t : State, s.TablesOk → s.TreeOk → s.ForestOk → step s = .next t → t.ForestOk

/-- The greedy order of the tree. -/
def Obligations.StepKeepsTheGreedyOrder : Prop :=
  ∀ s t : State, s.TablesOk → s.TreeOk → s.ForestOk → s.GreedyOk → step s = .next t → t.GreedyOk

/-- The weight invariant. -/
def Obligations.StepKeepsTheWeights : Prop :=
  ∀ s t : State, s.TablesOk → s.TreeOk → s.WeightsOk → step s = .next t → t.WeightsOk

/-- The code table stays the one its tree derives, or empty. -/
def Obligations.StepKeepsTheCodeTable : Prop :=
  ∀ s t : State, s.CodesOk → step s = .next t → t.CodesOk

/-- No step of a machine whose tree is consistent stops: every host access is answered and every accepted command
completes (60_exceptions.md R172; that none hangs is assumed, log entry 2). -/
def Obligations.NoStepStops : Prop :=
  ∀ s : State, s.TreeOk → ∃ t, step s = .next t

/-- R51, over every state with `busy = 0` that a run from reset reaches, whatever the host does. -/
def Obligations.ReachableIdleStatesMeetR51 : Prop :=
  ∀ s : State, Reachable s → s.busy = false →
    (s.phase = .empty → s.nleaf = 0 ∧ s.nnode = 0 ∧ s.pq = [] ∧ s.root = 0x1FF#9 ∧ ∀ x, (s.codeAt x).valid = false) ∧
    (s.phase = .queued → 1 ≤ s.nleaf.toNat ∧ s.nleaf.toNat ≤ 256 ∧
      (∃ m, s.nnode.toNat = s.nleaf.toNat + m ∧ s.pq.length + m = s.nleaf.toNat) ∧ 1 ≤ s.pq.length ∧
      s.root = 0x1FF#9 ∧ ∀ x, (s.codeAt x).valid = false) ∧
    (s.phase = .built ∨ s.phase = .coded → s.nnode.toNat + 1 = 2 * s.nleaf.toNat ∧ s.pq = [] ∧
      s.root.toNat + 1 = s.nnode.toNat ∧ (s.nodeAt s.root.toNat).weight.toNat = s.leafTotal) ∧
    (s.phase = .built → ∀ x, (s.codeAt x).valid = false) ∧
    (s.phase = .coded → ∀ x, (s.codeAt x).valid = true ↔ ∃ l, l < s.nleaf.toNat ∧ (s.nodeAt l).sym.toNat = x) ∧
    (∀ i, s.nleaf.toNat ≤ i → i < s.nnode.toNat → s.InternalOk i) ∧
    (∀ i, i < s.nnode.toNat → s.parentCount i ≤ 1)

/-- No state that a run from reset reaches stops the machine (60_exceptions.md R172). That no command hangs is assumed
(DEDUCED, log entry 2). -/
def Obligations.ReachableStatesNeverStop : Prop :=
  ∀ s : State, Reachable s → ∃ t, step s = .next t
end

