-- ==== Sys2Proof/Laws/State.lean ====
section
/-! SUPPORT. One lemma per field of the state and per named update of it, and which fields each view of the state reads,
so that no later proof unfolds a record update. -/

namespace Sys2Proof.Machine

variable (s : State)

/-! ### State.start -/

@[simp] theorem State.start_freq (i : Instr) : (s.start i).freq = s.freq := rfl
@[simp] theorem State.start_node (i : Instr) : (s.start i).node = s.node := rfl
@[simp] theorem State.start_nleaf (i : Instr) : (s.start i).nleaf = s.nleaf := rfl
@[simp] theorem State.start_nnode (i : Instr) : (s.start i).nnode = s.nnode := rfl
@[simp] theorem State.start_pq (i : Instr) : (s.start i).pq = s.pq := rfl
@[simp] theorem State.start_root (i : Instr) : (s.start i).root = s.root := rfl
@[simp] theorem State.start_code (i : Instr) : (s.start i).code = s.code := rfl
@[simp] theorem State.start_phase (i : Instr) : (s.start i).phase = s.phase := rfl
@[simp] theorem State.start_ie (i : Instr) : (s.start i).ie = s.ie := rfl
@[simp] theorem State.start_engine (i : Instr) : (s.start i).engine = .running i := rfl
@[simp] theorem State.start_done (i : Instr) : (s.start i).done = false := rfl
@[simp] theorem State.start_err (i : Instr) : (s.start i).err = s.err := rfl
@[simp] theorem State.start_errCode (i : Instr) : (s.start i).errCode = s.errCode := rfl
@[simp] theorem State.start_sched (i : Instr) : (s.start i).sched = s.sched := rfl
@[simp] theorem State.start_resp (i : Instr) : (s.start i).resp = s.resp := rfl
@[simp] theorem State.start_draws (i : Instr) : (s.start i).draws = s.draws := rfl

/-! ### State.ackDone -/

@[simp] theorem State.ackDone_freq : s.ackDone.freq = s.freq := rfl
@[simp] theorem State.ackDone_node : s.ackDone.node = s.node := rfl
@[simp] theorem State.ackDone_nleaf : s.ackDone.nleaf = s.nleaf := rfl
@[simp] theorem State.ackDone_nnode : s.ackDone.nnode = s.nnode := rfl
@[simp] theorem State.ackDone_pq : s.ackDone.pq = s.pq := rfl
@[simp] theorem State.ackDone_root : s.ackDone.root = s.root := rfl
@[simp] theorem State.ackDone_code : s.ackDone.code = s.code := rfl
@[simp] theorem State.ackDone_phase : s.ackDone.phase = s.phase := rfl
@[simp] theorem State.ackDone_ie : s.ackDone.ie = s.ie := rfl
@[simp] theorem State.ackDone_engine : s.ackDone.engine = s.engine := rfl
@[simp] theorem State.ackDone_done : s.ackDone.done = false := rfl
@[simp] theorem State.ackDone_err : s.ackDone.err = s.err := rfl
@[simp] theorem State.ackDone_errCode : s.ackDone.errCode = s.errCode := rfl
@[simp] theorem State.ackDone_sched : s.ackDone.sched = s.sched := rfl
@[simp] theorem State.ackDone_resp : s.ackDone.resp = s.resp := rfl
@[simp] theorem State.ackDone_draws : s.ackDone.draws = s.draws := rfl

/-! ### State.ackErr -/

@[simp] theorem State.ackErr_freq : s.ackErr.freq = s.freq := rfl
@[simp] theorem State.ackErr_node : s.ackErr.node = s.node := rfl
@[simp] theorem State.ackErr_nleaf : s.ackErr.nleaf = s.nleaf := rfl
@[simp] theorem State.ackErr_nnode : s.ackErr.nnode = s.nnode := rfl
@[simp] theorem State.ackErr_pq : s.ackErr.pq = s.pq := rfl
@[simp] theorem State.ackErr_root : s.ackErr.root = s.root := rfl
@[simp] theorem State.ackErr_code : s.ackErr.code = s.code := rfl
@[simp] theorem State.ackErr_phase : s.ackErr.phase = s.phase := rfl
@[simp] theorem State.ackErr_ie : s.ackErr.ie = s.ie := rfl
@[simp] theorem State.ackErr_engine : s.ackErr.engine = s.engine := rfl
@[simp] theorem State.ackErr_done : s.ackErr.done = s.done := rfl
@[simp] theorem State.ackErr_err : s.ackErr.err = false := rfl
@[simp] theorem State.ackErr_errCode : s.ackErr.errCode = .none := rfl
@[simp] theorem State.ackErr_sched : s.ackErr.sched = s.sched := rfl
@[simp] theorem State.ackErr_resp : s.ackErr.resp = s.resp := rfl
@[simp] theorem State.ackErr_draws : s.ackErr.draws = s.draws := rfl

/-! ### State.setFreq -/

@[simp] theorem State.setFreq_freq (x : Nat) (v : Word) : (s.setFreq x v).freq = s.freq.write 0 x v := rfl
@[simp] theorem State.setFreq_node (x : Nat) (v : Word) : (s.setFreq x v).node = s.node := rfl
@[simp] theorem State.setFreq_nleaf (x : Nat) (v : Word) : (s.setFreq x v).nleaf = s.nleaf := rfl
@[simp] theorem State.setFreq_nnode (x : Nat) (v : Word) : (s.setFreq x v).nnode = s.nnode := rfl
@[simp] theorem State.setFreq_pq (x : Nat) (v : Word) : (s.setFreq x v).pq = s.pq := rfl
@[simp] theorem State.setFreq_root (x : Nat) (v : Word) : (s.setFreq x v).root = s.root := rfl
@[simp] theorem State.setFreq_code (x : Nat) (v : Word) : (s.setFreq x v).code = s.code := rfl
@[simp] theorem State.setFreq_phase (x : Nat) (v : Word) : (s.setFreq x v).phase = s.phase := rfl
@[simp] theorem State.setFreq_ie (x : Nat) (v : Word) : (s.setFreq x v).ie = s.ie := rfl
@[simp] theorem State.setFreq_engine (x : Nat) (v : Word) : (s.setFreq x v).engine = s.engine := rfl
@[simp] theorem State.setFreq_done (x : Nat) (v : Word) : (s.setFreq x v).done = s.done := rfl
@[simp] theorem State.setFreq_err (x : Nat) (v : Word) : (s.setFreq x v).err = s.err := rfl
@[simp] theorem State.setFreq_errCode (x : Nat) (v : Word) : (s.setFreq x v).errCode = s.errCode := rfl
@[simp] theorem State.setFreq_sched (x : Nat) (v : Word) : (s.setFreq x v).sched = s.sched := rfl
@[simp] theorem State.setFreq_resp (x : Nat) (v : Word) : (s.setFreq x v).resp = s.resp := rfl
@[simp] theorem State.setFreq_draws (x : Nat) (v : Word) : (s.setFreq x v).draws = s.draws := rfl

/-! ### State.setNode -/

@[simp] theorem State.setNode_freq (k : NodeId) (n : Node) : (s.setNode k n).freq = s.freq := rfl
@[simp] theorem State.setNode_node (k : NodeId) (n : Node) : (s.setNode k n).node = s.node.write Node.zero k.val n := rfl
@[simp] theorem State.setNode_nleaf (k : NodeId) (n : Node) : (s.setNode k n).nleaf = s.nleaf := rfl
@[simp] theorem State.setNode_nnode (k : NodeId) (n : Node) : (s.setNode k n).nnode = s.nnode := rfl
@[simp] theorem State.setNode_pq (k : NodeId) (n : Node) : (s.setNode k n).pq = s.pq := rfl
@[simp] theorem State.setNode_root (k : NodeId) (n : Node) : (s.setNode k n).root = s.root := rfl
@[simp] theorem State.setNode_code (k : NodeId) (n : Node) : (s.setNode k n).code = s.code := rfl
@[simp] theorem State.setNode_phase (k : NodeId) (n : Node) : (s.setNode k n).phase = s.phase := rfl
@[simp] theorem State.setNode_ie (k : NodeId) (n : Node) : (s.setNode k n).ie = s.ie := rfl
@[simp] theorem State.setNode_engine (k : NodeId) (n : Node) : (s.setNode k n).engine = s.engine := rfl
@[simp] theorem State.setNode_done (k : NodeId) (n : Node) : (s.setNode k n).done = s.done := rfl
@[simp] theorem State.setNode_err (k : NodeId) (n : Node) : (s.setNode k n).err = s.err := rfl
@[simp] theorem State.setNode_errCode (k : NodeId) (n : Node) : (s.setNode k n).errCode = s.errCode := rfl
@[simp] theorem State.setNode_sched (k : NodeId) (n : Node) : (s.setNode k n).sched = s.sched := rfl
@[simp] theorem State.setNode_resp (k : NodeId) (n : Node) : (s.setNode k n).resp = s.resp := rfl
@[simp] theorem State.setNode_draws (k : NodeId) (n : Node) : (s.setNode k n).draws = s.draws := rfl

/-! ### State.writeCtrl -/

@[simp] theorem State.writeCtrl_freq (v : Word) : (s.writeCtrl v).freq = s.freq := rfl
@[simp] theorem State.writeCtrl_node (v : Word) : (s.writeCtrl v).node = s.node := rfl
@[simp] theorem State.writeCtrl_nleaf (v : Word) : (s.writeCtrl v).nleaf = s.nleaf := rfl
@[simp] theorem State.writeCtrl_nnode (v : Word) : (s.writeCtrl v).nnode = s.nnode := rfl
@[simp] theorem State.writeCtrl_pq (v : Word) : (s.writeCtrl v).pq = s.pq := rfl
@[simp] theorem State.writeCtrl_root (v : Word) : (s.writeCtrl v).root = s.root := rfl
@[simp] theorem State.writeCtrl_code (v : Word) : (s.writeCtrl v).code = s.code := rfl
@[simp] theorem State.writeCtrl_phase (v : Word) : (s.writeCtrl v).phase = s.phase := rfl
@[simp] theorem State.writeCtrl_ie (v : Word) : (s.writeCtrl v).ie = v.getLsbD 0 := rfl
@[simp] theorem State.writeCtrl_engine (v : Word) : (s.writeCtrl v).engine = s.engine := rfl
@[simp] theorem State.writeCtrl_done (v : Word) : (s.writeCtrl v).done = s.done := rfl
@[simp] theorem State.writeCtrl_err (v : Word) : (s.writeCtrl v).err = s.err := rfl
@[simp] theorem State.writeCtrl_errCode (v : Word) : (s.writeCtrl v).errCode = s.errCode := rfl
@[simp] theorem State.writeCtrl_sched (v : Word) : (s.writeCtrl v).sched = s.sched := rfl
@[simp] theorem State.writeCtrl_resp (v : Word) : (s.writeCtrl v).resp = s.resp := rfl
@[simp] theorem State.writeCtrl_draws (v : Word) : (s.writeCtrl v).draws = s.draws := rfl

/-! ### State.cleared -/

@[simp] theorem State.cleared_freq : s.cleared.freq = [] := rfl
@[simp] theorem State.cleared_node : s.cleared.node = [] := rfl
@[simp] theorem State.cleared_nleaf : s.cleared.nleaf = 0 := rfl
@[simp] theorem State.cleared_nnode : s.cleared.nnode = 0 := rfl
@[simp] theorem State.cleared_pq : s.cleared.pq = [] := rfl
@[simp] theorem State.cleared_root : s.cleared.root = Config.nil := rfl
@[simp] theorem State.cleared_code : s.cleared.code = [] := rfl
@[simp] theorem State.cleared_phase : s.cleared.phase = .empty := rfl
@[simp] theorem State.cleared_ie : s.cleared.ie = s.ie := rfl
@[simp] theorem State.cleared_engine : s.cleared.engine = s.engine := rfl
@[simp] theorem State.cleared_done : s.cleared.done = s.done := rfl
@[simp] theorem State.cleared_err : s.cleared.err = s.err := rfl
@[simp] theorem State.cleared_errCode : s.cleared.errCode = s.errCode := rfl
@[simp] theorem State.cleared_sched : s.cleared.sched = s.sched := rfl
@[simp] theorem State.cleared_resp : s.cleared.resp = s.resp := rfl
@[simp] theorem State.cleared_draws : s.cleared.draws = s.draws := rfl

/-! ### State.endClearing -/

@[simp] theorem State.endClearing_freq : s.endClearing.freq = [] := rfl
@[simp] theorem State.endClearing_node : s.endClearing.node = [] := rfl
@[simp] theorem State.endClearing_nleaf : s.endClearing.nleaf = 0 := rfl
@[simp] theorem State.endClearing_nnode : s.endClearing.nnode = 0 := rfl
@[simp] theorem State.endClearing_pq : s.endClearing.pq = [] := rfl
@[simp] theorem State.endClearing_root : s.endClearing.root = Config.nil := rfl
@[simp] theorem State.endClearing_code : s.endClearing.code = [] := rfl
@[simp] theorem State.endClearing_phase : s.endClearing.phase = .empty := rfl
@[simp] theorem State.endClearing_ie : s.endClearing.ie = s.ie := rfl
@[simp] theorem State.endClearing_engine : s.endClearing.engine = .idle := rfl
@[simp] theorem State.endClearing_done : s.endClearing.done = false := rfl
@[simp] theorem State.endClearing_err : s.endClearing.err = s.err := rfl
@[simp] theorem State.endClearing_errCode : s.endClearing.errCode = s.errCode := rfl
@[simp] theorem State.endClearing_sched : s.endClearing.sched = s.sched := rfl
@[simp] theorem State.endClearing_resp : s.endClearing.resp = s.resp := rfl
@[simp] theorem State.endClearing_draws : s.endClearing.draws = s.draws := rfl

/-! ### State.queueLeaves -/

@[simp] theorem State.queueLeaves_freq (S : List Nat) : (s.queueLeaves S).freq = s.freq := rfl
@[simp] theorem State.queueLeaves_node (S : List Nat) : (s.queueLeaves S).node = s.leafArena S := rfl
@[simp] theorem State.queueLeaves_nleaf (S : List Nat) : (s.queueLeaves S).nleaf = BitVec.ofNat 9 S.length := rfl
@[simp] theorem State.queueLeaves_nnode (S : List Nat) : (s.queueLeaves S).nnode = BitVec.ofNat 9 S.length := rfl
@[simp] theorem State.queueLeaves_pq (S : List Nat) : (s.queueLeaves S).pq = firstIds S.length := rfl
@[simp] theorem State.queueLeaves_root (S : List Nat) : (s.queueLeaves S).root = Config.nil := rfl
@[simp] theorem State.queueLeaves_code (S : List Nat) : (s.queueLeaves S).code = [] := rfl
@[simp] theorem State.queueLeaves_phase (S : List Nat) : (s.queueLeaves S).phase = .queued := rfl
@[simp] theorem State.queueLeaves_ie (S : List Nat) : (s.queueLeaves S).ie = s.ie := rfl
@[simp] theorem State.queueLeaves_engine (S : List Nat) : (s.queueLeaves S).engine = s.engine := rfl
@[simp] theorem State.queueLeaves_done (S : List Nat) : (s.queueLeaves S).done = s.done := rfl
@[simp] theorem State.queueLeaves_err (S : List Nat) : (s.queueLeaves S).err = s.err := rfl
@[simp] theorem State.queueLeaves_errCode (S : List Nat) : (s.queueLeaves S).errCode = s.errCode := rfl
@[simp] theorem State.queueLeaves_sched (S : List Nat) : (s.queueLeaves S).sched = s.sched := rfl
@[simp] theorem State.queueLeaves_resp (S : List Nat) : (s.queueLeaves S).resp = s.resp := rfl
@[simp] theorem State.queueLeaves_draws (S : List Nat) : (s.queueLeaves S).draws = s.draws := rfl

/-! ### State.withFirstError -/

@[simp] theorem State.withFirstError_freq (e : ErrCode) : (s.withFirstError e).freq = s.freq := rfl
@[simp] theorem State.withFirstError_node (e : ErrCode) : (s.withFirstError e).node = s.node := rfl
@[simp] theorem State.withFirstError_nleaf (e : ErrCode) : (s.withFirstError e).nleaf = s.nleaf := rfl
@[simp] theorem State.withFirstError_nnode (e : ErrCode) : (s.withFirstError e).nnode = s.nnode := rfl
@[simp] theorem State.withFirstError_pq (e : ErrCode) : (s.withFirstError e).pq = s.pq := rfl
@[simp] theorem State.withFirstError_root (e : ErrCode) : (s.withFirstError e).root = s.root := rfl
@[simp] theorem State.withFirstError_code (e : ErrCode) : (s.withFirstError e).code = s.code := rfl
@[simp] theorem State.withFirstError_phase (e : ErrCode) : (s.withFirstError e).phase = s.phase := rfl
@[simp] theorem State.withFirstError_ie (e : ErrCode) : (s.withFirstError e).ie = s.ie := rfl
@[simp] theorem State.withFirstError_engine (e : ErrCode) : (s.withFirstError e).engine = s.engine := rfl
@[simp] theorem State.withFirstError_done (e : ErrCode) : (s.withFirstError e).done = s.done := rfl
@[simp] theorem State.withFirstError_err (e : ErrCode) : (s.withFirstError e).err = true := rfl
@[simp] theorem State.withFirstError_errCode (e : ErrCode) : (s.withFirstError e).errCode = if s.err then s.errCode else e := rfl
@[simp] theorem State.withFirstError_sched (e : ErrCode) : (s.withFirstError e).sched = s.sched := rfl
@[simp] theorem State.withFirstError_resp (e : ErrCode) : (s.withFirstError e).resp = s.resp := rfl
@[simp] theorem State.withFirstError_draws (e : ErrCode) : (s.withFirstError e).draws = s.draws := rfl

/-! ### State.block -/

@[simp] theorem State.block_freq : s.block.freq = s.freq := rfl
@[simp] theorem State.block_node : s.block.node = s.node := rfl
@[simp] theorem State.block_nleaf : s.block.nleaf = s.nleaf := rfl
@[simp] theorem State.block_nnode : s.block.nnode = s.nnode := rfl
@[simp] theorem State.block_pq : s.block.pq = s.pq := rfl
@[simp] theorem State.block_root : s.block.root = s.root := rfl
@[simp] theorem State.block_code : s.block.code = s.code := rfl
@[simp] theorem State.block_phase : s.block.phase = s.phase := rfl
@[simp] theorem State.block_ie : s.block.ie = s.ie := rfl
@[simp] theorem State.block_engine : s.block.engine = s.engine := rfl
@[simp] theorem State.block_done : s.block.done = s.done := rfl
@[simp] theorem State.block_err : s.block.err = s.err := rfl
@[simp] theorem State.block_errCode : s.block.errCode = s.errCode := rfl
@[simp] theorem State.block_sched : s.block.sched = [] := rfl
@[simp] theorem State.block_resp : s.block.resp = .none := rfl
@[simp] theorem State.block_draws : s.block.draws = 0 := rfl

/-! ### State.setErr -/

@[simp] theorem State.setErr_freq (e : ErrCode) : (s.setErr e).freq = s.freq := by unfold State.setErr; split <;> rfl
@[simp] theorem State.setErr_node (e : ErrCode) : (s.setErr e).node = s.node := by unfold State.setErr; split <;> rfl
@[simp] theorem State.setErr_nleaf (e : ErrCode) : (s.setErr e).nleaf = s.nleaf := by unfold State.setErr; split <;> rfl
@[simp] theorem State.setErr_nnode (e : ErrCode) : (s.setErr e).nnode = s.nnode := by unfold State.setErr; split <;> rfl
@[simp] theorem State.setErr_pq (e : ErrCode) : (s.setErr e).pq = s.pq := by unfold State.setErr; split <;> rfl
@[simp] theorem State.setErr_root (e : ErrCode) : (s.setErr e).root = s.root := by unfold State.setErr; split <;> rfl
@[simp] theorem State.setErr_code (e : ErrCode) : (s.setErr e).code = s.code := by unfold State.setErr; split <;> rfl
@[simp] theorem State.setErr_phase (e : ErrCode) : (s.setErr e).phase = s.phase := by unfold State.setErr; split <;> rfl
@[simp] theorem State.setErr_ie (e : ErrCode) : (s.setErr e).ie = s.ie := by unfold State.setErr; split <;> rfl
@[simp] theorem State.setErr_engine (e : ErrCode) : (s.setErr e).engine = s.engine := by unfold State.setErr; split <;> rfl
@[simp] theorem State.setErr_done (e : ErrCode) : (s.setErr e).done = s.done := by unfold State.setErr; split <;> rfl
@[simp] theorem State.setErr_sched (e : ErrCode) : (s.setErr e).sched = s.sched := by unfold State.setErr; split <;> rfl
@[simp] theorem State.setErr_resp (e : ErrCode) : (s.setErr e).resp = s.resp := by unfold State.setErr; split <;> rfl
@[simp] theorem State.setErr_draws (e : ErrCode) : (s.setErr e).draws = s.draws := by unfold State.setErr; split <;> rfl

@[simp] theorem State.setErr_err (e : ErrCode) : (s.setErr e).err = true := by
  unfold State.setErr; split <;> simp_all

@[simp] theorem State.setErr_errCode (e : ErrCode) : (s.setErr e).errCode = if s.err then s.errCode else e := by
  unfold State.setErr; split <;> simp_all

/-- `set_err` as one record update, whether or not an error is recorded already (10_state.md R36). -/
theorem State.setErr_eq (e : ErrCode) : s.setErr e = s.withFirstError e := by
  unfold State.setErr State.withFirstError
  cases s
  split <;> simp_all

/-! ### Which fields the views of the state read -/

variable {s}

theorem State.freqAt_congr {t : State} (h : t.freq = s.freq) : t.freqAt = s.freqAt := by
  funext x; simp only [State.freqAt, h]

theorem State.nodeAt_congr {t : State} (h : t.node = s.node) : t.nodeAt = s.nodeAt := by
  funext i; simp only [State.nodeAt, h]

theorem State.codeAt_congr {t : State} (h : t.code = s.code) : t.codeAt = s.codeAt := by
  funext x; simp only [State.codeAt, h]

theorem State.weightAt_congr {t : State} (h : t.node = s.node) : t.weightAt = s.weightAt := by
  funext i; simp only [State.weightAt, State.nodeAt_congr h]

theorem State.busy_congr {t : State} (h : t.engine = s.engine) : t.busy = s.busy := by
  simp only [State.busy, h]

theorem State.finished_congr {t : State} (h : t.phase = s.phase) : t.finished = s.finished := by
  simp only [State.finished, h]

theorem State.present_congr {t : State} (h : t.freq = s.freq) : t.present = s.present := by
  simp only [State.present, State.freqAt_congr h]

theorem State.argminKey_congr {t : State} (h : t.node = s.node) (q : List NodeId) :
    t.argminKey q = s.argminKey q := by
  induction q with
  | nil => rfl
  | cons i q ih => simp only [State.argminKey, ih, State.keyLt, State.weightAt_congr h]; rfl

theorem State.popTwo_congr {t : State} (hn : t.node = s.node) (hq : t.pq = s.pq) : t.popTwo = s.popTwo := by
  simp only [State.popTwo, State.argminKey_congr hn, hq]

/-- The walk reads only the node arena. -/
theorem walk_congr {t : State} (h : t.node = s.node) (n : Nat) (i : Idx) (d : Nat) (p : BitVec 256) (m : Memory Code) :
    walk t n i d p m = walk s n i d p m := by
  induction n generalizing i d p m with
  | zero => rfl
  | succ n ih => simp only [walk, State.nodeAt_congr h, ih]

theorem State.codeTable_congr {t : State} (hn : t.node = s.node) (hr : t.root = s.root) : t.codeTable = s.codeTable := by
  simp only [State.codeTable, walk_congr hn, hr]

/-! ### Busy -/

theorem State.busy_eq_false_iff : s.busy = false ↔ s.engine = .idle := by simp [State.busy]

theorem State.busy_eq_true_iff : s.busy = true ↔ s.engine ≠ .idle := by simp [State.busy]

@[simp] theorem State.start_busy (i : Instr) : (s.start i).busy = true := rfl

theorem State.finished_iff : s.finished = true ↔ s.phase = .built ∨ s.phase = .coded := by simp [State.finished]

end Sys2Proof.Machine
end

