-- ==== Sys2Proof/Laws/Bus.lean ====
section
/-! SUPPORT. What one host access can do (20_memory.md R62 to R68). -/

namespace Sys2Proof.Machine

variable {s : State}

/-- A read changes only the port's answer and the count of draws (20_memory.md R67, R68). -/
theorem State.hostRead_eq (s : State) (a : Addr) (n : Nat) :
    ∃ r k, s.hostRead a n = { s with resp := r, draws := k } ∧ (s.busy = false → k = s.draws) := by
  unfold State.hostRead State.readRegion
  split
  · split
    · rename_i v hv
      exact ⟨_, _, rfl, fun hb => by simp [hb] at hv⟩
    · exact ⟨_, _, rfl, fun _ => rfl⟩
  · exact ⟨_, _, rfl, fun _ => rfl⟩

/-- Everything a write to CMD can do (60_exceptions.md R171). -/
theorem State.issue_cases (s : State) (v : Word) :
    (s.busy = true ∧ s.issue v = s.withFirstError .busy) ∨
    (s.busy = false ∧ (∃ e, decode v = .error e) ∧ s.issue v = s.withFirstError .illegalCmd) ∨
    (s.busy = false ∧ ∃ i, decode v = .ok i ∧ s.issue v = s.start i) := by
  unfold State.issue
  cases hb : s.busy with
  | true => exact .inl ⟨rfl, by simp [State.setErr_eq]⟩
  | false =>
    cases hd : decode v with
    | error e => exact .inr (.inl ⟨rfl, ⟨e, rfl⟩, by simp [State.setErr_eq]⟩)
    | ok i => exact .inr (.inr ⟨rfl, i, rfl, by simp⟩)

/-- A write to STATUS as one record update (10_state.md R43). -/
theorem State.writeStatus_eq (s : State) (v : Word) :
    s.writeStatus v =
      { s with
        done := s.done && !v.getLsbD 1
        err := s.err && !v.getLsbD 2
        errCode := if v.getLsbD 2 then .none else s.errCode } := by
  unfold State.writeStatus State.ackDone State.ackErr
  cases s
  cases v.getLsbD 1 <;> cases v.getLsbD 2 <;> simp

/-- Everything a write that the port takes can do to the block. -/
theorem State.writeRegion_cases (s : State) (v : Word) (r : Region) :
    s.writeRegion v r = s ∨ (r = .ctrl ∧ s.writeRegion v r = s.writeCtrl v) ∨
      (r = .cmd ∧ s.writeRegion v r = s.issue v) ∨ (r = .status ∧ s.writeRegion v r = s.writeStatus v) ∨
      (∃ x, r = .freq x ∧ s.busy = true ∧ s.writeRegion v r = s.withFirstError .busy) ∨
      (∃ x, r = .freq x ∧ s.busy = false ∧ s.writeRegion v r = s.setFreq x v) := by
  cases r with
  | freq x =>
    cases hb : s.busy with
    | true => exact .inr (.inr (.inr (.inr (.inl ⟨x, rfl, rfl, by simp [State.writeRegion, State.writeFreq, hb, State.setErr_eq]⟩))))
    | false => exact .inr (.inr (.inr (.inr (.inr ⟨x, rfl, rfl, by simp [State.writeRegion, State.writeFreq, hb]⟩))))
  | ctrl => exact .inr (.inl ⟨rfl, rfl⟩)
  | cmd => exact .inr (.inr (.inl ⟨rfl, rfl⟩))
  | status => exact .inr (.inr (.inr (.inl ⟨rfl, rfl⟩)))
  | _ => exact .inl rfl

/-- The map by ranges, for the offsets the windows use (20_memory.md R60). -/
theorem regionOf_freq {x : Nat} (h : x < 256) : regionOf (BitVec.ofNat 15 (0x400 + 4 * x)) = .freq x := by
  have ha : (BitVec.ofNat 15 (0x400 + 4 * x)).toNat = 0x400 + 4 * x := by rw [BitVec.toNat_ofNat]; omega
  unfold regionOf
  rw [ha, if_neg (by omega), if_pos (by omega)]
  congr 1; omega

theorem regionOf_node {i k : Nat} (hi : i < 512) (hk : k < 4) :
    regionOf (BitVec.ofNat 15 (0x1000 + 16 * i + 4 * k)) = .node i k := by
  have ha : (BitVec.ofNat 15 (0x1000 + 16 * i + 4 * k)).toNat = 0x1000 + 16 * i + 4 * k := by
    rw [BitVec.toNat_ofNat]; omega
  unfold regionOf
  rw [ha, if_neg (by omega), if_neg (by omega), if_neg (by omega), if_pos (by omega)]
  congr 1 <;> omega

theorem regionOf_code {x k : Nat} (hx : x < 256) (hk : k < 16) :
    regionOf (BitVec.ofNat 15 (0x4000 + 64 * x + 4 * k)) = .code x k := by
  have ha : (BitVec.ofNat 15 (0x4000 + 64 * x + 4 * k)).toNat = 0x4000 + 64 * x + 4 * k := by
    rw [BitVec.toNat_ofNat]; omega
  unfold regionOf
  rw [ha, if_neg (by omega), if_neg (by omega), if_neg (by omega), if_neg (by omega), if_neg (by omega)]
  congr 1 <;> omega

/-- Only the FREQ window's word `x` selects `freq[x]`. -/
theorem regionOf_eq_freq {a : Addr} {x : Nat} (hw : a.toNat % 4 = 0) (h : regionOf a = .freq x) :
    x < 256 ∧ a = BitVec.ofNat 15 (0x400 + 4 * x) := by
  have hr : ∀ n, regionOfRegister n ≠ .freq x := by
    intro n; unfold regionOfRegister; split <;> simp
  unfold regionOf at h
  split at h
  · exact absurd h (hr _)
  · split at h
    · rename_i h1 h2
      simp only [Region.freq.injEq] at h
      refine ⟨by omega, BitVec.eq_of_toNat_eq ?_⟩
      rw [BitVec.toNat_ofNat]; omega
    · split at h
      · simp at h
      · split at h
        · simp at h
        · split at h <;> simp at h

/-- A control or status register is selected only by its own offset. -/
theorem regionOf_eq_register {a : Addr} {r : Region} {k : Nat} (hw : a.toNat % 4 = 0)
    (hr : ∀ n, regionOfRegister n = r → n = k) (hf : ∀ x, r ≠ .freq x) (hn : ∀ i j, r ≠ .node i j)
    (hc : ∀ x j, r ≠ .code x j) (hres : r ≠ .reserved) (h : regionOf a = r) : a.toNat = 4 * k := by
  unfold regionOf at h
  split at h
  · have := hr _ h; omega
  · split at h
    · exact absurd h.symm (hf _)
    · split at h
      · exact absurd h.symm hres
      · split at h
        · exact absurd h.symm (hn _ _)
        · split at h
          · exact absurd h.symm hres
          · exact absurd h.symm (hc _ _)

theorem regionOf_eq_ctrl {a : Addr} (hw : a.toNat % 4 = 0) (h : regionOf a = .ctrl) : a = 0x0008#15 := by
  have := regionOf_eq_register (k := 2) hw (by intro n hn; unfold regionOfRegister at hn; split at hn <;> simp_all)
    (by simp) (by simp) (by simp) (by simp) h
  exact BitVec.eq_of_toNat_eq (by simpa using this)

theorem regionOf_eq_cmd {a : Addr} (hw : a.toNat % 4 = 0) (h : regionOf a = .cmd) : a = 0x000C#15 := by
  have := regionOf_eq_register (k := 3) hw (by intro n hn; unfold regionOfRegister at hn; split at hn <;> simp_all)
    (by simp) (by simp) (by simp) (by simp) h
  exact BitVec.eq_of_toNat_eq (by simpa using this)

theorem regionOf_eq_status {a : Addr} (hw : a.toNat % 4 = 0) (h : regionOf a = .status) : a = 0x0010#15 := by
  have := regionOf_eq_register (k := 4) hw (by intro n hn; unfold regionOfRegister at hn; split at hn <;> simp_all)
    (by simp) (by simp) (by simp) (by simp) h
  exact BitVec.eq_of_toNat_eq (by simpa using this)

/-- Everything a host write can do: refused by the bus, or taken by the port with one of five effects. -/
theorem State.hostWrite_cases (s : State) (a : Addr) (n : Nat) (v : Word) :
    (wholeWord a n = false ∧ s.hostWrite a n v = { s with resp := .busError }) ∨
    (n = 4 ∧ ∃ t, s.hostWrite a n v = { t with resp := .written } ∧
      (t = s ∨ (a = 0x0008#15 ∧ t = s.writeCtrl v) ∨ (a = 0x000C#15 ∧ t = s.issue v) ∨
        (a = 0x0010#15 ∧ t = s.writeStatus v) ∨ (s.busy = true ∧ t = s.withFirstError .busy) ∨
        (∃ x, x < 256 ∧ a = BitVec.ofNat 15 (0x400 + 4 * x) ∧ s.busy = false ∧ t = s.setFreq x v))) := by
  cases hw : wholeWord a n with
  | false => exact .inl ⟨rfl, by simp [State.hostWrite, hw]⟩
  | true =>
    have hn : n = 4 ∧ a.toNat % 4 = 0 := by simpa [wholeWord] using hw
    refine .inr ⟨hn.1, s.writeRegion v (regionOf a), by simp [State.hostWrite, hw], ?_⟩
    rcases State.writeRegion_cases s v (regionOf a) with h | ⟨hr, h⟩ | ⟨hr, h⟩ | ⟨hr, h⟩ | ⟨x, hr, hb, h⟩ | ⟨x, hr, hb, h⟩
    · exact .inl h
    · exact .inr (.inl ⟨regionOf_eq_ctrl hn.2 hr, h⟩)
    · exact .inr (.inr (.inl ⟨regionOf_eq_cmd hn.2 hr, h⟩))
    · exact .inr (.inr (.inr (.inl ⟨regionOf_eq_status hn.2 hr, h⟩)))
    · exact .inr (.inr (.inr (.inr (.inl ⟨hb, h⟩))))
    · have := regionOf_eq_freq hn.2 hr
      exact .inr (.inr (.inr (.inr (.inr ⟨x, this.1, this.2, hb, h⟩))))

end Sys2Proof.Machine
end

