-- ==== Sys2Proof/Laws/Access.lean ====
section
/-! SUPPORT. The host accesses of Sys2Proof/Safety.lean (`ReadsAs`, `DrawsAs`, `WritesTo`) in terms of what the address
selects, one lemma each. -/

namespace Sys2Proof.Machine

variable {s : State}

/-- A whole-word offset. -/
theorem wholeWord_ofNat {a : Nat} (h : a % 4 = 0) : wholeWord (BitVec.ofNat 15 a) 4 = true := by
  simp [wholeWord]; omega

/-- A read that takes no draw returns the exact word. -/
theorem State.readsAs_of {a : Nat} (ha : a % 4 = 0)
    (hd : s.busy = true → s.drawnWord (Config.draw s.draws) (regionOf (BitVec.ofNat 15 a)) = none) :
    s.ReadsAs a (s.exactWord (regionOf (BitVec.ofNat 15 a))) := by
  intro es
  show Host.Outcome.next (State.hostRead _ _ _) = _
  simp only [State.hostRead, wholeWord_ofNat ha, if_true, State.readRegion]
  have hnone : (if State.busy { s with sched := es } = true then
      State.drawnWord { s with sched := es } (Config.draw s.draws) (regionOf (BitVec.ofNat 15 a))
    else none) = none := by
    split
    · rename_i h; exact hd h
    · rfl
  show Host.Outcome.next (match (if State.busy { s with sched := es } = true then
      State.drawnWord { s with sched := es } (Config.draw s.draws) (regionOf (BitVec.ofNat 15 a))
    else none) with | some v => _ | none => _) = _
  rw [hnone]
  rfl

/-- A read while busy of a place that reads a draw. -/
theorem State.drawsAs_of {a : Nat} {w : Word} (ha : a % 4 = 0) (hb : s.busy = true)
    (hd : s.drawnWord (Config.draw s.draws) (regionOf (BitVec.ofNat 15 a)) = some w) : s.DrawsAs a w := by
  intro es
  show Host.Outcome.next (State.hostRead _ _ _) = _
  simp only [State.hostRead, wholeWord_ofNat ha, if_true, State.readRegion]
  have hsome : (if State.busy { s with sched := es } = true then
      State.drawnWord { s with sched := es } (Config.draw s.draws) (regionOf (BitVec.ofNat 15 a))
    else none) = some w := by
    rw [if_pos (show State.busy { s with sched := es } = true from hb)]
    exact hd
  show Host.Outcome.next (match (if State.busy { s with sched := es } = true then
      State.drawnWord { s with sched := es } (Config.draw s.draws) (regionOf (BitVec.ofNat 15 a))
    else none) with | some v => _ | none => _) = _
  rw [hsome]

/-- A write of a whole word has the effect of the place its offset selects. -/
theorem State.writesTo_of {a : Nat} {v : Word} (ha : a % 4 = 0) :
    s.WritesTo a v (s.writeRegion v (regionOf (BitVec.ofNat 15 a))) := by
  intro es
  show Host.Outcome.next (State.hostWrite _ _ _ _) = _
  simp only [State.hostWrite, wholeWord_ofNat ha, if_true]
  congr 1
  have hb : State.busy { s with sched := es } = s.busy := rfl
  cases regionOf (BitVec.ofNat 15 a) with
  | cmd =>
    simp only [State.writeRegion, State.issue, hb]
    cases s.busy
    · cases decode v with
      | error e => simp [State.setErr_eq, State.withFirstError]
      | ok i => rfl
    · simp [State.setErr_eq, State.withFirstError]
  | status => simp only [State.writeRegion, State.writeStatus_eq]
  | freq x =>
    simp only [State.writeRegion, State.writeFreq, hb]
    cases s.busy
    · rfl
    · simp [State.setErr_eq, State.withFirstError]
  | _ => rfl

end Sys2Proof.Machine
end

