-- ==== Sys2Proof/Laws/Memory.lean ====
section
/-! SUPPORT. The laws of the storage arrays: a read after a write, and that every operation on an array keeps its
canonical form. -/

namespace Sys2Proof.Machine

section generic
variable {α : Type} {d : α} {n : Nat}

@[simp] theorem Memory.read_nil (k : Nat) : Memory.read d [] k = d := rfl

/-- An index below every listed one reads as unlisted. -/
theorem Memory.read_of_lt {m : Memory α} {k : Nat} (h : ∀ c ∈ m, k < c.1) : m.read d k = d := by
  induction m with
  | nil => rfl
  | cons c m ih =>
    have hk : k < c.1 := h c (by simp)
    simp only [Memory.read, if_neg (Nat.ne_of_gt hk)]
    exact ih fun c' hc' => h c' (by simp [hc'])

/-- An index that is not listed reads as `d`. -/
theorem Memory.read_of_not_mem {m : Memory α} {k : Nat} (h : ∀ c ∈ m, c.1 ≠ k) : m.read d k = d := by
  induction m with
  | nil => rfl
  | cons c m ih =>
    simp only [Memory.read, if_neg (h c (by simp))]
    exact ih fun c' hc' => h c' (by simp [hc'])

/-- A listed cell reads as its value. -/
theorem Memory.read_of_mem {m : Memory α} {c : Nat × α} (hs : m.Pairwise fun c c' => c.1 < c'.1) (h : c ∈ m) :
    m.read d c.1 = c.2 := by
  induction m with
  | nil => simp at h
  | cons c' m ih =>
    obtain ⟨j, u⟩ := c'
    rw [List.pairwise_cons] at hs
    rcases List.mem_cons.mp h with rfl | h
    · simp [Memory.read]
    · have hlt : j < c.1 := hs.1 c h
      simp only [Memory.read, if_neg (Nat.ne_of_lt hlt)]
      exact ih hs.2 h

variable [DecidableEq α]

/-- The indices that a write lists are the written one and those listed before. -/
theorem Memory.mem_write {m : Memory α} {k : Nat} {v : α} {c : Nat × α} (h : c ∈ m.write d k v) :
    c ∈ m ∨ (c = (k, v) ∧ v ≠ d) := by
  induction m with
  | nil =>
    simp only [Memory.write] at h
    split at h <;> simp_all
  | cons c' m ih =>
    obtain ⟨j, u⟩ := c'
    simp only [Memory.write] at h
    split at h
    · split at h <;> simp_all
      tauto
    · split at h
      · split at h <;> simp_all
        tauto
      · rcases List.mem_cons.mp h with rfl | h
        · simp
        · rcases ih h with h | h <;> simp_all

theorem Memory.pairwise_write {m : Memory α} {k : Nat} {v : α} (hs : m.Pairwise fun c c' => c.1 < c'.1) :
    (m.write d k v).Pairwise fun c c' => c.1 < c'.1 := by
  induction m with
  | nil =>
    simp only [Memory.write]
    split <;> simp
  | cons c m ih =>
    obtain ⟨j, u⟩ := c
    have hs' := List.pairwise_cons.mp hs
    simp only [Memory.write]
    split
    · split
      · exact hs
      · rename_i hkj _
        refine List.pairwise_cons.mpr ⟨fun c hc => ?_, hs⟩
        rcases List.mem_cons.mp hc with rfl | hc
        · exact hkj
        · exact Nat.lt_trans hkj (hs'.1 c hc)
    · split
      · rename_i hkj
        split
        · exact hs'.2
        · exact List.pairwise_cons.mpr ⟨fun c hc => hkj ▸ hs'.1 c hc, hs'.2⟩
      · refine List.pairwise_cons.mpr ⟨fun c hc => ?_, ih hs'.2⟩
        rcases Memory.mem_write hc with hc | ⟨rfl, -⟩
        · exact hs'.1 c hc
        · simp only; omega

/-- A write inside the array keeps its canonical form. -/
theorem Memory.wf_write {m : Memory α} {k : Nat} {v : α} (hm : m.wf n d) (hk : k < n) : (m.write d k v).wf n d := by
  refine ⟨Memory.pairwise_write hm.1, fun c hc => ?_⟩
  rcases Memory.mem_write hc with hc | ⟨rfl, hv⟩
  · exact hm.2 c hc
  · exact ⟨hk, hv⟩

theorem Memory.wf_nil : Memory.wf n d ([] : Memory α) := by simp [Memory.wf]

/-- A read after a write to the same index gives the value written. -/
theorem Memory.read_write_same {m : Memory α} {k : Nat} {v : α} (hs : m.Pairwise fun c c' => c.1 < c'.1) :
    (m.write d k v).read d k = v := by
  induction m with
  | nil =>
    simp only [Memory.write]
    split <;> simp_all [Memory.read]
  | cons c m ih =>
    obtain ⟨j, u⟩ := c
    have hs' := List.pairwise_cons.mp hs
    simp only [Memory.write]
    split
    · rename_i hkj
      split
      · rename_i hv
        rw [hv]
        refine Memory.read_of_lt fun c hc => ?_
        rcases List.mem_cons.mp hc with rfl | hc
        · exact hkj
        · exact Nat.lt_trans hkj (hs'.1 c hc)
      · simp [Memory.read]
    · split
      · rename_i hkj
        split
        · rename_i hv
          rw [hv]
          exact Memory.read_of_lt fun c hc => hkj ▸ hs'.1 c hc
        · simp [Memory.read]
      · rename_i hne
        simp only [Memory.read, if_neg (Ne.symm hne)]
        exact ih hs'.2

/-- A write leaves every other index as it reads. -/
theorem Memory.read_write_other {m : Memory α} {k k' : Nat} {v : α} (hne : k' ≠ k) :
    (m.write d k v).read d k' = m.read d k' := by
  induction m with
  | nil =>
    simp only [Memory.write]
    split
    · rfl
    · simp [Memory.read, Ne.symm hne]
  | cons c m ih =>
    obtain ⟨j, u⟩ := c
    simp only [Memory.write]
    split
    · split
      · rfl
      · simp [Memory.read, Ne.symm hne]
    · split
      · rename_i hkj
        split <;> simp [Memory.read, ← hkj, Ne.symm hne]
      · simp only [Memory.read, ih]

/-- A canonical array reads as unlisted outside its range. -/
theorem Memory.read_of_ge {m : Memory α} (hm : m.wf n d) {k : Nat} (hk : n ≤ k) : m.read d k = d :=
  Memory.read_of_not_mem fun c hc => by have := (hm.2 c hc).1; omega

end generic

/-! ### The block's three arrays -/

variable {s : State}

theorem State.nodeAt_of_ge {i : Nat} (h : 511 ≤ i) : s.nodeAt i = Node.zero := by
  simp [State.nodeAt, Config.maxNodes, Nat.not_lt.mpr h]

theorem State.nodeAt_nil (h : s.node = []) (i : Nat) : s.nodeAt i = Node.zero := by
  simp [State.nodeAt, h]

theorem State.freqAt_nil (h : s.freq = []) (x : Nat) : s.freqAt x = 0 := by simp [State.freqAt, h]

theorem State.codeAt_nil (h : s.code = []) (x : Nat) : s.codeAt x = Code.zero := by simp [State.codeAt, h]

/-- `freq[x] <- v` read back. -/
theorem State.setFreq_freqAt (hs : s.freq.wf 256 0) (x y : Nat) (v : Word) :
    (s.setFreq x v).freqAt y = if y = x then v else s.freqAt y := by
  simp only [State.freqAt, State.setFreq_freq]
  split
  · rename_i h; subst h; exact Memory.read_write_same hs.1
  · rename_i h; exact Memory.read_write_other h

/-- `node[k] <- n` read back. -/
theorem State.setNode_nodeAt (hs : s.node.wf 511 Node.zero) (k : NodeId) (i : Nat) (n : Node) :
    (s.setNode k n).nodeAt i = if i = k.val then n else s.nodeAt i := by
  simp only [State.nodeAt, State.setNode_node]
  by_cases h : i = k.val
  · subst h; rw [if_pos k.isLt, if_pos rfl]; exact Memory.read_write_same hs.1
  · rw [if_neg h, Memory.read_write_other h]

/-- PQ_INIT's arena lists the leaves in order. -/
theorem State.leafArena_wf {S : List Nat} (h : S.length ≤ 511) : (s.leafArena S).wf 511 Node.zero := by
  constructor
  · unfold State.leafArena
    rw [List.pairwise_map, List.pairwise_iff_getElem]
    intro i j hi hj hij
    simpa using hij
  · intro c hc
    simp only [State.leafArena, List.mem_map] at hc
    obtain ⟨⟨x, j⟩, hp, rfl⟩ := hc
    have := List.mem_zipIdx hp
    exact ⟨by simp only; omega, by simp [State.leafOf, Node.zero]⟩

/-- PQ_INIT's arena read: leaf `j` is the leaf of symbol `S[j]` (40_tree_builder.md R112). -/
theorem State.leafArena_read {S : List Nat} (h : S.length ≤ 511) (j : Nat) (hj : j < S.length) :
    (s.leafArena S).read Node.zero j = s.leafOf S[j] := by
  have hmem : (j, s.leafOf S[j]) ∈ s.leafArena S := by
    simp only [State.leafArena, List.mem_map]
    exact ⟨(S[j], j), by simp [List.mem_zipIdx_iff_getElem?, hj], rfl⟩
  exact Memory.read_of_mem (State.leafArena_wf h).1 hmem

/-- PQ_INIT's arena holds nothing after its leaves. -/
theorem State.leafArena_read_of_ge {S : List Nat} {j : Nat} (hj : S.length ≤ j) :
    (s.leafArena S).read Node.zero j = Node.zero := by
  refine Memory.read_of_not_mem fun c hc => ?_
  simp only [State.leafArena, List.mem_map] at hc
  obtain ⟨⟨x, i⟩, hp, rfl⟩ := hc
  have := List.mem_zipIdx hp
  simp only; omega

/-- The walk of GEN_CODES keeps the code table canonical. -/
theorem walk_wf {n : Nat} {i : Idx} {d : Nat} {p : BitVec 256} {m m' : Memory Code} (hm : m.wf 256 Code.zero)
    (h : walk s n i d p m = .ok m') : m'.wf 256 Code.zero := by
  induction n generalizing i d p m m' with
  | zero => simp [walk] at h
  | succ n ih =>
    simp only [walk] at h
    split at h
    · simp at h
    · split at h
      · cases h
        exact Memory.wf_write hm (by simpa using (s.nodeAt i.toNat).sym.isLt)
      · split at h
        · simp at h
        · rename_i hl
          exact ih (ih hm hl) h

theorem State.reset_tables_wf :
    State.reset.freq.wf 256 0 ∧ State.reset.node.wf 511 Node.zero ∧ State.reset.code.wf 256 Code.zero :=
  ⟨Memory.wf_nil, Memory.wf_nil, Memory.wf_nil⟩

end Sys2Proof.Machine
end

