-- ==== Sys2Proof/Laws/Operands.lean ====
section
/-! SUPPORT. What the queue operations do: the least key (40_tree_builder.md R111), MERGE's two extractions (R113), and
the insertion of the new node. -/

namespace Sys2Proof.Machine

variable {s : State}

theorem State.keyLt_iff (i j : NodeId) : s.keyLt i j = true ↔ s.KeyLess i j := by
  simp only [State.keyLt, State.KeyLess, Bool.or_eq_true, Bool.and_eq_true, decide_eq_true_eq, beq_iff_eq,
    BitVec.lt_def, BitVec.toNat_inj, Fin.lt_def]

theorem State.KeyLess.trans {i j k : NodeId} (h : s.KeyLess i j) (h' : s.KeyLess j k) : s.KeyLess i k := by
  unfold State.KeyLess at *; omega

theorem State.KeyLess.asymm {i j : NodeId} (h : s.KeyLess i j) : ¬ s.KeyLess j i := by
  unfold State.KeyLess at *; omega

/-- Keys are distinct, so they are ordered one way or the other. -/
theorem State.KeyLess.total {i j : NodeId} (h : i ≠ j) : s.KeyLess i j ∨ s.KeyLess j i := by
  have : i.val ≠ j.val := fun e => h (Fin.ext e)
  unfold State.KeyLess; omega

/-- There is at most one least element. -/
theorem State.IsLeast.unique {q : List NodeId} {a b : NodeId} (ha : s.IsLeast q a) (hb : s.IsLeast q b) : a = b := by
  by_contra h
  exact (ha.2 b hb.1 (Ne.symm h)).asymm (hb.2 a ha.1 h)

theorem State.argminKey_eq_none {q : List NodeId} : s.argminKey q = none ↔ q = [] := by
  cases q with
  | nil => simp [State.argminKey]
  | cons i q =>
    simp only [State.argminKey, reduceCtorEq, iff_false]
    split
    · simp
    · split <;> simp

/-- The search's answer is the least element. -/
theorem State.isLeast_of_argminKey {q : List NodeId} {a : NodeId} (h : s.argminKey q = some a) : s.IsLeast q a := by
  induction q generalizing a with
  | nil => simp [State.argminKey] at h
  | cons i q ih =>
    simp only [State.argminKey] at h
    split at h
    · rename_i hq
      cases h
      rw [State.argminKey_eq_none.mp hq]
      exact ⟨by simp, by simp⟩
    · rename_i j hj
      have hl := ih hj
      split at h
      · rename_i hlt
        cases h
        have hij := (State.keyLt_iff i j).mp hlt
        refine ⟨by simp, fun k hk hne => ?_⟩
        rcases List.mem_cons.mp hk with rfl | hk
        · exact absurd rfl hne
        · by_cases hkj : k = j
          · exact hkj ▸ hij
          · exact hij.trans (hl.2 k hk hkj)
      · rename_i hlt
        cases h
        refine ⟨by simp [hl.1], fun k hk hne => ?_⟩
        rcases List.mem_cons.mp hk with rfl | hk
        · exact (State.KeyLess.total hne).resolve_left fun h => hlt ((State.keyLt_iff _ _).mpr h)
        · exact hl.2 k hk hne

theorem State.argminKey_isSome {q : List NodeId} (h : q ≠ []) : ∃ a, s.argminKey q = some a :=
  Option.ne_none_iff_exists'.mp fun hn => h (State.argminKey_eq_none.mp hn)

/-- Two extractions answer exactly the two least elements in order, and what is left. -/
theorem State.popTwo_eq_some {a b : NodeId} {rest : List NodeId} :
    s.popTwo = some (a, b, rest) ↔
      s.argminKey s.pq = some a ∧ s.argminKey (s.pq.erase a) = some b ∧ rest = (s.pq.erase a).erase b := by
  constructor
  · intro h
    unfold State.popTwo at h
    split at h
    · simp at h
    · rename_i a' ha
      split at h
      · simp at h
      · rename_i b' hb
        simp only [Option.some.injEq, Prod.mk.injEq] at h
        obtain ⟨rfl, rfl, rfl⟩ := h
        exact ⟨ha, hb, rfl⟩
  · rintro ⟨ha, hb, rfl⟩
    simp [State.popTwo, ha, hb]

/-- Two extractions fail exactly when fewer than two nodes are queued. -/
theorem State.popTwo_eq_none : s.popTwo = none ↔ s.pq.length < 2 := by
  cases hq : s.argminKey s.pq with
  | none =>
    simp only [State.popTwo, hq, true_iff]
    rw [State.argminKey_eq_none.mp hq]; simp
  | some a =>
    have hmem := (State.isLeast_of_argminKey hq).1
    have hlen := List.length_erase_of_mem hmem
    have hpos := List.length_pos_of_mem hmem
    cases hr : s.argminKey (s.pq.erase a) with
    | none =>
      simp only [State.popTwo, hq, hr, true_iff]
      rw [State.argminKey_eq_none.mp hr] at hlen
      simp at hlen; omega
    | some b =>
      have := List.length_pos_of_mem (State.isLeast_of_argminKey hr).1
      simp only [State.popTwo, hq, hr, reduceCtorEq, false_iff]
      omega

theorem mem_insertId {k i : NodeId} {q : List NodeId} : i ∈ insertId k q ↔ i = k ∨ i ∈ q := by
  induction q with
  | nil => simp [insertId]
  | cons j q ih =>
    simp only [insertId]
    split
    · simp
    · split
      · rename_i h; subst h; simp
      · simp only [List.mem_cons, ih]; tauto

theorem pairwise_insertId {k : NodeId} {q : List NodeId} (h : q.Pairwise (· < ·)) :
    (insertId k q).Pairwise (· < ·) := by
  induction q with
  | nil => simp [insertId]
  | cons j q ih =>
    have h' := List.pairwise_cons.mp h
    simp only [insertId]
    split
    · rename_i hkj
      refine List.pairwise_cons.mpr ⟨fun i hi => ?_, h⟩
      rcases List.mem_cons.mp hi with rfl | hi
      · exact hkj
      · exact lt_trans hkj (h'.1 i hi)
    · split
      · exact h
      · rename_i hlt hne
        refine List.pairwise_cons.mpr ⟨fun i hi => ?_, ih h'.2⟩
        rcases mem_insertId.mp hi with rfl | hi
        · exact lt_of_le_of_ne (not_lt.mp hlt) (Ne.symm hne)
        · exact h'.1 i hi

/-- A new node is one more in the queue. -/
theorem perm_insertId {k : NodeId} {q : List NodeId} (h : k ∉ q) : (insertId k q).Perm (k :: q) := by
  induction q with
  | nil => simp [insertId]
  | cons j q ih =>
    simp only [List.mem_cons, not_or] at h
    simp only [insertId]
    split
    · exact List.Perm.refl _
    · rw [if_neg h.1]
      exact ((ih h.2).cons j).trans (List.Perm.swap k j q)

theorem nodup_of_pairwise_lt {q : List NodeId} (h : q.Pairwise (· < ·)) : q.Nodup :=
  h.imp fun hlt => ne_of_lt hlt

/-- The queue is `a`, `b` and what MERGE leaves of it. -/
theorem perm_of_popTwo {a b : NodeId} {rest : List NodeId} (h : s.popTwo = some (a, b, rest)) :
    s.pq.Perm (a :: b :: rest) := by
  obtain ⟨ha, hb, rfl⟩ := State.popTwo_eq_some.mp h
  exact (List.perm_cons_erase (State.isLeast_of_argminKey ha).1).trans
    ((List.perm_cons_erase (State.isLeast_of_argminKey hb).1).cons a)

theorem pairwise_of_popTwo {a b : NodeId} {rest : List NodeId} (hs : s.pq.Pairwise (· < ·))
    (h : s.popTwo = some (a, b, rest)) : rest.Pairwise (· < ·) := by
  obtain ⟨-, -, rfl⟩ := State.popTwo_eq_some.mp h
  exact (hs.sublist List.erase_sublist).sublist List.erase_sublist

@[simp] theorem idxOf_toNat (i : NodeId) : (idxOf i).toNat = i.val := by
  have := i.isLt
  simp only [idxOf, BitVec.toNat_ofNat]; omega

theorem idxOf_ne_nil (i : NodeId) : idxOf i ≠ Config.nil := by
  intro h
  have h' := congrArg BitVec.toNat h
  have := i.isLt
  simp only [idxOf_toNat, Config.nil] at h'
  simp at h'; omega

/-- The 33-bit sum is exact (40_tree_builder.md R116). -/
theorem weightSum_toNat (x y : Word) : (weightSum x y).toNat = x.toNat + y.toNat := by
  have := x.isLt
  have := y.isLt
  simp only [weightSum, BitVec.toNat_add, BitVec.toNat_setWidth]; omega

/-- A sum that fits a weight is stored exactly. -/
theorem weightSum_setWidth_toNat {x y : Word} (h : (weightSum x y).toNat ≤ Config.maxFreq) :
    ((weightSum x y).setWidth 32).toNat = x.toNat + y.toNat := by
  rw [weightSum_toNat] at h
  simp only [Config.maxFreq] at h
  rw [BitVec.toNat_setWidth, weightSum_toNat]; omega

theorem State.mem_present {x : Nat} : x ∈ s.present ↔ x < 256 ∧ s.freqAt x ≠ 0 := by
  simp [State.present, Config.nSym]

theorem State.pairwise_present : s.present.Pairwise (· < ·) :=
  List.pairwise_lt_range.sublist List.filter_sublist

theorem State.length_present_le : s.present.length ≤ 256 := by
  have := (List.filter_sublist (p := fun x => s.freqAt x != 0) (l := List.range 256)).length_le
  simpa [State.present, Config.nSym] using this

@[simp] theorem length_firstIds (n : Nat) : (firstIds n).length = n := by simp [firstIds]

theorem mem_firstIds {n : Nat} (h : n ≤ 511) {i : NodeId} : i ∈ firstIds n ↔ i.val < n := by
  simp only [firstIds, List.mem_map, List.mem_range]
  constructor
  · rintro ⟨j, hj, rfl⟩
    simp only [Fin.ofNat]
    omega
  · intro hi
    exact ⟨i.val, hi, Fin.ext (Nat.mod_eq_of_lt i.isLt)⟩

theorem pairwise_firstIds {n : Nat} (h : n ≤ 511) : (firstIds n).Pairwise (· < ·) := by
  unfold firstIds
  rw [List.pairwise_map]
  refine List.pairwise_lt_range.imp_of_mem fun {i j} hi hj hij => ?_
  simp only [List.mem_range] at hi hj
  show i % 511 < j % 511
  rw [Nat.mod_eq_of_lt (by omega), Nat.mod_eq_of_lt (by omega)]
  exact hij

end Sys2Proof.Machine
end

