-- ==== Sys2Proof/Laws/Commands.lean ====
section
/-! SUPPORT. For each shared operation behind the commands, one lemma that says all it can do. -/

namespace Sys2Proof.Machine

variable {s t : State}

/-! ### Completion (60_exceptions.md R172) -/

/-- A completion answers a next state exactly when the command's rule did not stop. -/
theorem complete_eq_next {r : CmdEnd} :
    complete r = .next t ↔
      (∃ u, r = .ok u ∧ t = { u with engine := .idle, done := true }) ∨
      (∃ e u, r = .raised e u ∧ t = { u.withFirstError e with engine := .idle }) := by
  cases r with
  | ok u =>
    constructor
    · intro h; cases h; exact .inl ⟨u, rfl, rfl⟩
    · rintro (⟨u', h, rfl⟩ | ⟨e, u', h, -⟩)
      · cases h; rfl
      · cases h
  | raised e u =>
    have hc : complete (.raised e u) = .next { u.withFirstError e with engine := .idle } := by
      simp only [complete, State.setErr_eq]; rfl
    rw [hc]
    constructor
    · intro h; cases h; exact .inr ⟨e, u, rfl, rfl⟩
    · rintro (⟨u', h, -⟩ | ⟨e', u', h, rfl⟩)
      · cases h
      · cases h; rfl
  | stuck f => simp [complete]

theorem CmdEnd.andThen_eq_ok {r : CmdEnd} {f : State → CmdEnd} {u : State} :
    r.andThen f = .ok u ↔ ∃ v, r = .ok v ∧ f v = .ok u := by
  cases r <;> simp [CmdEnd.andThen]

theorem CmdEnd.andThen_eq_raised {r : CmdEnd} {f : State → CmdEnd} {e : ErrCode} {u : State} :
    r.andThen f = .raised e u ↔ r = .raised e u ∨ ∃ v, r = .ok v ∧ f v = .raised e u := by
  cases r <;> simp [CmdEnd.andThen]

theorem CmdEnd.andThen_eq_stuck {r : CmdEnd} {f : State → CmdEnd} {x : Fault} :
    r.andThen f = .stuck x ↔ r = .stuck x ∨ ∃ v, r = .ok v ∧ f v = .stuck x := by
  cases r <;> simp [CmdEnd.andThen]

/-! ### PQ_INIT (40_tree_builder.md R112) -/

theorem pqInitBody_cases (s : State) :
    (s.present = [] ∧ pqInitBody s = .raised .emptyInput s) ∨
    (s.present ≠ [] ∧ pqInitBody s = .ok (s.queueLeaves s.present)) := by
  unfold pqInitBody
  by_cases h : s.present = [] <;> simp [h]

theorem State.queueLeaves_nodeAt {S : List Nat} (h : S.length ≤ 511) (j : Nat) :
    (s.queueLeaves S).nodeAt j = if hj : j < S.length then s.leafOf S[j] else Node.zero := by
  by_cases hj : j < S.length
  · rw [dif_pos hj]
    simp only [State.nodeAt, State.queueLeaves_node, Config.maxNodes]
    rw [if_pos (by omega), State.leafArena_read h j hj]
  · rw [dif_neg hj]
    simp only [State.nodeAt, State.queueLeaves_node, State.leafArena_read_of_ge (Nat.not_lt.mp hj), ite_self]

/-! ### MERGE (40_tree_builder.md R113) -/

/-- The state that MERGE of `a` and `b` into the new node `k` leaves. -/
def State.merged (s : State) (a b : NodeId) (rest : List NodeId) (k : NodeId) : State :=
  { s.setNode k (parentNode ((weightSum (s.weightAt a) (s.weightAt b)).setWidth 32) a b) with
    nnode := s.nnode + 1
    pq := insertId k rest }

/-- Everything that MERGE's body can do. -/
theorem mergeBody_cases (s : State) :
    ((s.phase ≠ .queued ∨ s.pq.length < 2) ∧ mergeBody s = .raised .badSequence s) ∨
    (∃ a b rest, s.phase = .queued ∧ s.popTwo = some (a, b, rest) ∧
      (((s.weightAt a).toNat + (s.weightAt b).toNat > 0xFFFFFFFF ∧ mergeBody s = .raised .weightOverflow s) ∨
       ((s.weightAt a).toNat + (s.weightAt b).toNat ≤ 0xFFFFFFFF ∧
         ((∃ k : NodeId, k.val = s.nnode.toNat ∧ mergeBody s = .ok (s.merged a b rest k)) ∨
          (s.nnode.toNat = 511 ∧ mergeBody s = .stuck .noSuchNode))))) := by
  unfold mergeBody
  by_cases hp : s.phase = .queued
  · rw [if_neg (by simp [hp])]
    cases h2 : s.popTwo with
    | none => exact .inl ⟨.inr (State.popTwo_eq_none.mp h2), rfl⟩
    | some p =>
      obtain ⟨a, b, rest⟩ := p
      refine .inr ⟨a, b, rest, hp, rfl, ?_⟩
      simp only [weightSum_toNat, Config.maxFreq]
      by_cases hw : (s.weightAt a).toNat + (s.weightAt b).toNat > 0xFFFFFFFF
      · exact .inl ⟨hw, by rw [if_pos hw]⟩
      · refine .inr ⟨by omega, ?_⟩
        rw [if_neg hw]
        by_cases hk : s.nnode.toNat < 511
        · exact .inl ⟨⟨s.nnode.toNat, hk⟩, rfl, by rw [dif_pos hk]; rfl⟩
        · have := s.nnode.isLt
          exact .inr ⟨by omega, by rw [dif_neg hk]⟩
  · exact .inl ⟨.inl hp, by rw [if_pos hp]⟩

/-- The nodes that are free when the next node is made are the queued ones: what MERGE chooses its children from. -/
theorem State.freeBefore_next (ht : s.TreeOk) (hf : s.ForestOk) (hp : s.phase = .queued) {k : NodeId}
    (hk : k.val = s.nnode.toNat) (i : NodeId) : s.FreeBefore k i ↔ i ∈ s.pq := by
  have hroot : s.root.toNat = 511 := by rw [(ht.queued hp).2.2.1]; rfl
  have hzero : s.parentCount i = 0 ↔
      ∀ j < k.val, (s.nodeAt j).left.toNat ≠ i.val ∧ (s.nodeAt j).right.toNat ≠ i.val := by
    simp only [State.parentCount, Nat.add_eq_zero_iff, List.countP_eq_zero, List.mem_range, beq_iff_eq, hk]
    exact ⟨fun h j hj => ⟨h.1 j hj, h.2 j hj⟩, fun h => ⟨fun j hj => (h j hj).1, fun j hj => (h j hj).2⟩⟩
  have hi := i.isLt
  rw [State.FreeBefore, ← hzero]
  constructor
  · rintro ⟨hlt, h0⟩
    have hlt : i.val < k.val := hlt
    rw [hf i.val (by omega)] at h0
    split at h0
    · rename_i h
      obtain ⟨x, hx, he⟩ := List.mem_map.mp (h.resolve_right (by omega))
      rwa [← Fin.ext he]
    · omega
  · intro hm
    have hlt := ht.members i hm
    refine ⟨show i.val < k.val by omega, ?_⟩
    rw [hf i.val hlt, if_pos (.inl (List.mem_map.mpr ⟨i, hm, rfl⟩))]

/-! ### FINISH (40_tree_builder.md R114) -/

theorem finishBody_cases (s : State) :
    ((s.phase ≠ .queued ∨ s.pq.length ≠ 1) ∧ finishBody s = .raised .badSequence s) ∨
    (∃ r, s.phase = .queued ∧ s.pq = [r] ∧
      finishBody s = .ok { s with root := idxOf r, pq := [], phase := .built }) := by
  unfold finishBody
  by_cases hp : s.phase = .queued
  · rw [if_neg (by simp [hp])]
    match hq : s.pq with
    | [] => exact .inl ⟨.inr (by simp), rfl⟩
    | [r] => exact .inr ⟨r, hp, rfl, rfl⟩
    | _ :: _ :: _ => exact .inl ⟨.inr (by simp), rfl⟩
  · exact .inl ⟨.inl hp, by rw [if_pos hp]⟩

/-! ### GEN_CODES (41_code_table_generator.md R140) -/

theorem genCodesBody_cases (s : State) :
    (s.finished = false ∧ genCodesBody s = .raised .badSequence s) ∨
    (s.finished = true ∧
      ((∃ m, s.codeTable = .ok m ∧ genCodesBody s = .ok { s with code := m, phase := .coded }) ∨
       (∃ f, s.codeTable = .error f ∧ genCodesBody s = .stuck f))) := by
  unfold genCodesBody
  cases hf : s.finished with
  | false => exact .inl ⟨rfl, by simp⟩
  | true =>
    refine .inr ⟨rfl, ?_⟩
    cases hc : s.codeTable with
    | ok m => exact .inl ⟨m, rfl, by simp⟩
    | error f => exact .inr ⟨f, rfl, by simp⟩

/-! ### Every command -/

/-- The rule of each command. -/
def bodyOf (i : Instr) (s : State) : CmdEnd :=
  match i with
  | .nop => .ok s
  | .clear => .ok s.cleared
  | .pqInit => pqInitBody s
  | .merge => mergeBody s
  | .finish => finishBody s
  | .build => buildBody s
  | .genCodes => genCodesBody s

/-- Every meaning is the completion of the command's rule. -/
theorem exec_eq (i : Instr) (s : State) : exec i s = complete (bodyOf i s) := by cases i <;> rfl

/-- Everything that a command which answers a next state can do. -/
theorem exec_eq_next {i : Instr} :
    exec i s = .next t ↔
      (∃ u, bodyOf i s = .ok u ∧ t = { u with engine := .idle, done := true }) ∨
      (∃ e u, bodyOf i s = .raised e u ∧ t = { u.withFirstError e with engine := .idle }) := by
  rw [exec_eq, complete_eq_next]

/-- A rule that did not stop left a state with `P`. -/
def CmdEnd.All (P : State → Prop) : CmdEnd → Prop
  | .ok u => P u
  | .raised _ u => P u
  | .stuck _ => True

theorem CmdEnd.All.mono {P Q : State → Prop} {r : CmdEnd} (h : r.All P) (hpq : ∀ u, P u → Q u) : r.All Q := by
  cases r with
  | ok u => exact hpq u h
  | raised e u => exact hpq u h
  | stuck f => trivial

theorem CmdEnd.All.andThen {P Q : State → Prop} {r : CmdEnd} {f : State → CmdEnd} (h : r.All P)
    (hpq : ∀ u, P u → Q u) (hf : ∀ u, P u → (f u).All Q) : (r.andThen f).All Q := by
  cases r with
  | ok u => exact hf u h
  | raised e u => exact hpq u h
  | stuck f => trivial

/-- A property that MERGE's body keeps, the merging loop of BUILD keeps. -/
theorem mergeLoop_all {P : State → Prop} (hm : ∀ u, P u → (mergeBody u).All P) (n : Nat) (hs : P s) :
    (mergeLoop n s).All P := by
  induction n generalizing s with
  | zero => exact hs
  | succ n ih =>
    unfold mergeLoop
    split
    · exact (hm s hs).andThen (fun _ h => h) fun u hu => ih hu
    · exact hs

/-- A property that the three steps keep, BUILD keeps. -/
theorem buildBody_all {P : State → Prop} (hp : ∀ u, P u → (pqInitBody u).All P) (hm : ∀ u, P u → (mergeBody u).All P)
    (hf : ∀ u, P u → (finishBody u).All P) (hs : P s) : (buildBody s).All P :=
  (hp s hs).andThen (fun _ h => h) fun t ht =>
    (mergeLoop_all hm t.pq.length ht).andThen (fun _ h => h) fun u hu => hf u hu

/-- `u` has the control state of `s`: no rule of a command writes it (40_tree_builder.md R110; the flags are written at
acceptance and completion only, R171, R172). -/
structure ControlKept (s u : State) : Prop where
  ie : u.ie = s.ie
  engine : u.engine = s.engine
  done : u.done = s.done
  err : u.err = s.err
  errCode : u.errCode = s.errCode
  sched : u.sched = s.sched
  resp : u.resp = s.resp
  draws : u.draws = s.draws

/-- The tree commands' rules write neither the frequencies nor the control state. -/
theorem bodyOf_keeps (i : Instr) (s : State) :
    (bodyOf i s).All fun u => (i ≠ .clear → u.freq = s.freq) ∧ ControlKept s u := by
  have init : ∀ v : State, v.freq = s.freq ∧ ControlKept s v →
      (pqInitBody v).All fun u => u.freq = s.freq ∧ ControlKept s u := by
    intro v hv
    rcases pqInitBody_cases v with ⟨_, h⟩ | ⟨_, h⟩ <;> rw [h]
    · exact hv
    · exact ⟨hv.1, ⟨hv.2.1, hv.2.2, hv.2.3, hv.2.4, hv.2.5, hv.2.6, hv.2.7, hv.2.8⟩⟩
  have merge : ∀ v : State, v.freq = s.freq ∧ ControlKept s v →
      (mergeBody v).All fun u => u.freq = s.freq ∧ ControlKept s u := by
    intro v hv
    rcases mergeBody_cases v with ⟨_, h⟩ | ⟨a, b, r, _, _, ⟨_, h⟩ | ⟨_, ⟨k, _, h⟩ | ⟨_, h⟩⟩⟩ <;> rw [h]
    · exact hv
    · exact hv
    · exact ⟨hv.1, ⟨hv.2.1, hv.2.2, hv.2.3, hv.2.4, hv.2.5, hv.2.6, hv.2.7, hv.2.8⟩⟩
    · trivial
  have finish : ∀ v : State, v.freq = s.freq ∧ ControlKept s v →
      (finishBody v).All fun u => u.freq = s.freq ∧ ControlKept s u := by
    intro v hv
    rcases finishBody_cases v with ⟨_, h⟩ | ⟨r, _, _, h⟩ <;> rw [h]
    · exact hv
    · exact ⟨hv.1, ⟨hv.2.1, hv.2.2, hv.2.3, hv.2.4, hv.2.5, hv.2.6, hv.2.7, hv.2.8⟩⟩
  have base : s.freq = s.freq ∧ ControlKept s s := ⟨rfl, ⟨rfl, rfl, rfl, rfl, rfl, rfl, rfl, rfl⟩⟩
  have drop : ∀ u : State, u.freq = s.freq ∧ ControlKept s u → (i ≠ .clear → u.freq = s.freq) ∧ ControlKept s u :=
    fun u hu => ⟨fun _ => hu.1, hu.2⟩
  cases i with
  | nop => exact ⟨fun _ => rfl, base.2⟩
  | clear => exact ⟨fun h => absurd rfl h, ⟨rfl, rfl, rfl, rfl, rfl, rfl, rfl, rfl⟩⟩
  | pqInit => exact (init s base).mono drop
  | merge => exact (merge s base).mono drop
  | finish => exact (finish s base).mono drop
  | build => exact (buildBody_all init merge finish base).mono drop
  | genCodes =>
    rcases genCodesBody_cases s with ⟨_, h⟩ | ⟨_, ⟨m, _, h⟩ | ⟨f, _, h⟩⟩ <;> rw [bodyOf, h]
    · exact drop s base
    · exact ⟨fun _ => rfl, ⟨rfl, rfl, rfl, rfl, rfl, rfl, rfl, rfl⟩⟩
    · trivial

end Sys2Proof.Machine
end

