-- ==== Sys2Proof/Laws/PerInstr.lean ====
section
/-! SUPPORT. Statements made per command, one lemma per constructor of `Instr`. -/

/-- Every command's word is well formed, and its four bytes decode to it (30_encoding.md R90, R92, R93). -/
def Sys2Proof.Laws.Encoding.Statement (i : Sys2Proof.Instr) : Prop :=
  Sys2Proof.CommandWord.wf (Sys2Proof.encode i) = true ∧
    Sys2Proof.decodeBytes (Sys2Proof.encodeBytes i) = .ok i

theorem Sys2Proof.Laws.Encoding.nop : Sys2Proof.Laws.Encoding.Statement .nop := ⟨by decide, rfl⟩
theorem Sys2Proof.Laws.Encoding.clear : Sys2Proof.Laws.Encoding.Statement .clear := ⟨by decide, rfl⟩
theorem Sys2Proof.Laws.Encoding.pqInit : Sys2Proof.Laws.Encoding.Statement .pqInit := ⟨by decide, rfl⟩
theorem Sys2Proof.Laws.Encoding.merge : Sys2Proof.Laws.Encoding.Statement .merge := ⟨by decide, rfl⟩
theorem Sys2Proof.Laws.Encoding.finish : Sys2Proof.Laws.Encoding.Statement .finish := ⟨by decide, rfl⟩
theorem Sys2Proof.Laws.Encoding.build : Sys2Proof.Laws.Encoding.Statement .build := ⟨by decide, rfl⟩
theorem Sys2Proof.Laws.Encoding.genCodes : Sys2Proof.Laws.Encoding.Statement .genCodes := ⟨by decide, rfl⟩
end

