-- ==== Sys2Proof/Laws/Step.lean ====
section
/-! SUPPORT. What one step can do: a host read, a host write, the reset input, or the engine's turn. -/

namespace Sys2Proof.Machine

variable {s t : State}

/-- Everything a step that answers a next state can do. -/
theorem step_cases (h : step s = .next t) :
    (∃ a n es, s.sched = .read a n :: es ∧ t = ({ s with sched := es }).hostRead a n) ∨
    (∃ a n v es, s.sched = .write a n v :: es ∧ t = ({ s with sched := es }).hostWrite a n v) ∨
    (∃ es, s.sched = .reset :: es ∧ t = ({ s with sched := es }).applyReset) ∨
    (s.EngineMoves ∧ ∃ es, (s.sched = [] ∧ es = [] ∨ s.sched = .engine :: es) ∧
      ((s.engine = .idle ∧ t = { s with sched := es }) ∨
       (s.engine = .clearing ∧ t = ({ s with sched := es }).endClearing) ∨
       (∃ i, s.engine = .running i ∧ exec i { s with sched := es } = .next t))) := by
  have engine : ∀ u : State, engineStep u = .next t →
      (u.engine = .idle ∧ t = u) ∨ (u.engine = .clearing ∧ t = u.endClearing) ∨
        (∃ i, u.engine = .running i ∧ exec i u = .next t) := by
    intro u hu
    unfold engineStep at hu
    split at hu
    · rename_i he; cases hu; exact .inl ⟨he, rfl⟩
    · rename_i he; cases hu; exact .inr (.inl ⟨he, rfl⟩)
    · rename_i i he; exact .inr (.inr ⟨i, he, hu⟩)
  unfold step at h
  split at h
  · rename_i hs
    have hs' : { s with sched := [] } = s := by rw [← hs]
    refine .inr (.inr (.inr ⟨.inl hs, [], .inl ⟨hs, rfl⟩, ?_⟩))
    rw [hs']; exact engine s h
  · rename_i e es hs
    cases e with
    | read a n => cases h; exact .inl ⟨a, n, es, hs, rfl⟩
    | write a n v => cases h; exact .inr (.inl ⟨a, n, v, es, hs, rfl⟩)
    | reset => cases h; exact .inr (.inr (.inl ⟨es, hs, rfl⟩))
    | engine => exact .inr (.inr (.inr ⟨.inr ⟨es, hs⟩, es, .inr hs, engine _ h⟩))

@[simp] theorem steps_zero : Steps 0 s t ↔ t = s := Iff.rfl

@[simp] theorem steps_succ {n : Nat} : Steps (n + 1) s t ↔ ∃ u, step s = .next u ∧ Steps n u t := Iff.rfl

/-- Every event but the engine's step of a running command answers a next state. -/
theorem step_of_not_running (h : ∀ i, s.engine ≠ .running i) : ∃ t, step s = .next t := by
  have engine : ∀ u : State, (∀ i, u.engine ≠ .running i) → ∃ t, engineStep u = .next t := by
    intro u hu
    unfold engineStep
    split
    · exact ⟨_, rfl⟩
    · exact ⟨_, rfl⟩
    · rename_i i he; exact absurd he (hu i)
  unfold step
  split
  · exact engine s h
  · rename_i e es hs
    cases e with
    | read a n => exact ⟨_, rfl⟩
    | write a n v => exact ⟨_, rfl⟩
    | reset => exact ⟨_, rfl⟩
    | engine => exact engine _ h

end Sys2Proof.Machine
end

