-- ==== Sys2Proof/Tests/Slice0.lean ====
section
/-! SUPPORT. The model's own tests: words decoded from the spec's encodings, ill-formed words refused, one step each
from the vectors of 95_test_vectors.md, and for every obligation with hypotheses a state that meets them. Expected
values are the spec's. -/

namespace Sys2Proof.Machine.Tests

/-! ### Words (30_encoding.md R92; opcode_table.json "encoding") -/

theorem test_decode_nop : decode 0b00000000000000000000000000000000#32 = .ok .nop := by rfl
theorem test_decode_clear : decode 0b00000000000000000000000000000001#32 = .ok .clear := by rfl
theorem test_decode_pqInit : decode 0b00000000000000000000000000000010#32 = .ok .pqInit := by rfl
theorem test_decode_merge : decode 0b00000000000000000000000000000011#32 = .ok .merge := by rfl
theorem test_decode_finish : decode 0b00000000000000000000000000000100#32 = .ok .finish := by rfl
theorem test_decode_build : decode 0b00000000000000000000000000000101#32 = .ok .build := by rfl
theorem test_decode_genCodes : decode 0b00000000000000000000000000000110#32 = .ok .genCodes := by rfl

/-- The bytes of GEN_CODES in little-endian order (20_memory.md R61). -/
theorem test_decode_bytes : decodeBytes [0x06#8, 0x00#8, 0x00#8, 0x00#8] = .ok .genCodes := by rfl

/-- V-H6, V-H7: OP 7, and OP 5 with RSV not 0. -/
theorem test_decode_illegal :
    decode 0x7#32 = .error .reservedOpcode ∧ decode 0x15#32 = .error .reservedBits := ⟨rfl, rfl⟩

theorem test_decode_three_bytes : decodeBytes [0x05#8, 0x00#8, 0x00#8] = .error .notOneWord := by rfl

theorem test_table_word_short : decodeTableWord 8 5 = some .build := by decide
theorem test_table_word : decodeTableWord 32 6 = some .genCodes ∧ decodeTableWord 32 0x15 = none := by decide

/-! ### WellFormed: an ill-formed word for each check -/

theorem test_wf_refuses_reserved_bits : CommandWord.rsvZero 0x15#32 = false ∧ CommandWord.wf 0x15#32 = false := by decide
theorem test_wf_refuses_reserved_opcode : CommandWord.opAssigned 0x7#32 = false ∧ CommandWord.wf 0x7#32 = false := by decide
theorem test_wf_accepts_gen_codes : CommandWord.wf 0x6#32 = true :=
  by decide

/-! ### States of the vectors -/

/-- The state of 10_state.md R50 with a frequency table. -/
def idle (f : Memory Word) : State := { State.reset with engine := .idle, freq := f }

/-- A in 0x41 five times, B twice, C once (40_tree_builder.md R112's example, V-T1). -/
def abc : State := idle [(0x41, 5), (0x42, 2), (0x43, 1)]

def leaf (w : Word) (x : Sym) : Node := ⟨true, .leaf, w, x, 0x1FF, 0x1FF⟩
def inner (w : Word) (l r : Idx) : Node := ⟨true, .internal, w, 0, l, r⟩

/-- V-T1's end state. -/
def abcQueued : State :=
  { abc with
    node := [(0, leaf 5 0x41), (1, leaf 2 0x42), (2, leaf 1 0x43)], nleaf := 3, nnode := 3, pq := [0, 1, 2]
    phase := .queued, done := true }

/-- V-T3's end state. -/
def abcMerged : State :=
  { abcQueued with
    node := [(0, leaf 5 0x41), (1, leaf 2 0x42), (2, leaf 1 0x43), (3, inner 3 2 1), (4, inner 8 3 0)]
    nnode := 5, pq := [4] }

/-- V-T5's end state. -/
def abcBuilt : State := { abcMerged with pq := [], root := 4, phase := .built }

/-- V-C1's end state. -/
def abcCoded : State :=
  { abcBuilt with code := [(0x41, ⟨true, 1, 1⟩), (0x42, ⟨true, 2, 2⟩), (0x43, ⟨true, 2, 0⟩)], phase := .coded }

/-- V-T20's end state: the degenerate tree. -/
def oneBuilt : State :=
  { idle [(0x61, 4)] with node := [(0, leaf 4 0x61)], nleaf := 1, nnode := 1, root := 0, phase := .built, done := true }

/-- V-T16's end state before its error, and V-T18's start: two leaves whose sum overflows. -/
def overQueued : State :=
  { idle [(0, 0xFFFFFFFF), (1, 1)] with
    node := [(0, leaf 0xFFFFFFFF 0), (1, leaf 1 1)], nleaf := 2, nnode := 2, pq := [0, 1], phase := .queued }

/-- Whether an outcome is the next state `t`, as a Bool that `decide` can run. -/
def answers (o : Host.Outcome State Fault Refusal) (t : State) : Bool :=
  match o with
  | .next u => decide (u = t)
  | .fault _ => false
  | .refused _ => false

theorem eq_of_answers {o : Host.Outcome State Fault Refusal} {t : State} (h : answers o t = true) : o = .next t := by
  cases o <;> simp_all [answers]

/-! ### The commands, one completion each -/

/-- V-K1: STATUS 0x0000_0002. -/
theorem test_nop : exec .nop (idle []) = .next { idle [] with done := true } :=
  eq_of_answers (by decide)

/-- V-K2, V-K3: everything cleared, an error kept. -/
theorem test_clear :
    exec .clear { abcCoded with err := true, errCode := .emptyInput } =
      .next { idle [] with done := true, err := true, errCode := .emptyInput } :=
  eq_of_answers (by decide)

/-- V-T1. -/
theorem test_pqInit : exec .pqInit abc = .next abcQueued :=
  eq_of_answers (by decide +kernel)

/-- V-T11: the old tree stays. -/
theorem test_pqInit_empty :
    exec .pqInit { abcBuilt with freq := [], done := false } =
      .next { abcBuilt with freq := [], done := false, err := true, errCode := .emptyInput } :=
  eq_of_answers (by decide +kernel)

/-- V-T2: a = 2, b = 1. -/
theorem test_merge :
    exec .merge abcQueued =
      .next { abcQueued with
        node := [(0, leaf 5 0x41), (1, leaf 2 0x42), (2, leaf 1 0x43), (3, inner 3 2 1)], nnode := 4, pq := [0, 3] } :=
  eq_of_answers (by decide +kernel)

/-- V-T18, V-T4: nothing changed but the error. -/
theorem test_merge_errors :
    exec .merge overQueued = .next { overQueued with err := true, errCode := .weightOverflow } ∧
    exec .merge abcMerged = .next { abcMerged with err := true, errCode := .badSequence } :=
  ⟨eq_of_answers (by decide +kernel), eq_of_answers (by decide +kernel)⟩

/-- V-T5. -/
theorem test_finish : exec .finish abcMerged = .next abcBuilt :=
  eq_of_answers (by decide +kernel)

/-- V-T6. -/
theorem test_finish_twice : exec .finish abcBuilt = .next { abcBuilt with err := true, errCode := .badSequence } :=
  eq_of_answers (by decide +kernel)

/-- V-T12. -/
theorem test_build : exec .build abc = .next abcBuilt :=
  eq_of_answers (by decide +kernel)

/-- V-T16. -/
theorem test_build_overflow :
    exec .build (idle [(0, 0xFFFFFFFF), (1, 1)]) = .next { overQueued with err := true, errCode := .weightOverflow } :=
  eq_of_answers (by decide +kernel)

/-- V-C1. -/
theorem test_genCodes : exec .genCodes abcBuilt = .next abcCoded :=
  eq_of_answers (by decide +kernel)

/-- V-C5: the empty code. -/
theorem test_genCodes_degenerate :
    exec .genCodes oneBuilt = .next { oneBuilt with code := [(0x61, ⟨true, 0, 0⟩)], phase := .coded } :=
  eq_of_answers (by decide +kernel)

/-! ### The host port, one access each -/

/-- The state after one event. -/
def after (s : State) (e : Event) : Host.Outcome State Fault Refusal := step { s with sched := [e] }

/-- V-H1, V-H2. -/
theorem test_read_id_param :
    after (idle []) (.read 0x000 4) = .next { idle [] with resp := .data 0x46465548 } ∧
    after (idle []) (.read 0x004 4) = .next { idle [] with resp := .data 0x00FF2008 } :=
  ⟨eq_of_answers (by decide), eq_of_answers (by decide)⟩

/-- STATUS of V-C5, V-T16 (with DONE 0), V-K1. -/
theorem test_status_words :
    ({ oneBuilt with phase := .coded }).statusWord = 0x0003000A ∧
    ({ overQueued with err := true, errCode := .weightOverflow }).statusWord = 0x00010504 ∧
    ({ idle [] with done := true }).statusWord = 0x00000002 := by decide

/-- COUNTS of V-T12 and NODE_LINK of V-T2; CODE_INFO and CODE_BITS of symbol 0x42 in V-C1. -/
theorem test_read_windows :
    after abcBuilt (.read 0x018 4) = .next { abcBuilt with resp := .data 0x00050003 } ∧
    after abcBuilt (.read 0x1038 4) = .next { abcBuilt with resp := .data 0x00010002 } ∧
    after abcCoded (.read 0x5080 4) = .next { abcCoded with resp := .data 0x80000002 } ∧
    after abcCoded (.read 0x5084 4) = .next { abcCoded with resp := .data 0x00000002 } :=
  ⟨eq_of_answers (by decide +kernel), eq_of_answers (by decide +kernel), eq_of_answers (by decide +kernel), eq_of_answers (by decide +kernel)⟩

/-- V-H6: ILLEGAL_CMD; V-H9: dropped with BUSY. -/
theorem test_cmd_refused :
    after (idle []) (.write 0x00C 4 0x7) =
      .next { idle [] with err := true, errCode := .illegalCmd, resp := .written } ∧
    after ((idle []).start .nop) (.write 0x00C 4 0x1) =
      .next { (idle []).start .nop with err := true, errCode := .busy, resp := .written } :=
  ⟨eq_of_answers (by decide), eq_of_answers (by decide)⟩

/-- R97: `cmd BUILD` is (0x000C, 0x5), and it is accepted. -/
theorem test_cmd_build :
    hostCmd .build = [.write 0x000C 4 0x5] ∧
    after abc (.write 0x000C 4 0x5) = .next { abc with engine := .running .build, resp := .written } :=
  ⟨by decide, eq_of_answers (by decide)⟩

/-- R97: `wait` polls at least once; P2's `rdcode 0x42` and P3's read of the empty code; a code of 33 digits has two words. -/
theorem test_host_loops :
    hostWait 0 = [.read 0x0010 4] ∧ hostRdcode 0x42 2 = [.read 0x5080 4, .read 0x5084 4] ∧
    hostRdcode 0x61 0 = [.read 0x5840 4] ∧ hostRdcode 0 33 = [.read 0x4000 4, .read 0x4004 4, .read 0x4008 4] := by decide

/-- P1's first line, V-H14 (a byte write), V-H13 (a misaligned one). -/
theorem test_freq_write :
    hostSetf 0x67 2 = [.write 0x059C 4 2] ∧
    after (idle []) (.write 0x059C 4 2) = .next { idle [(0x67, 2)] with resp := .written } ∧
    after (idle []) (.write 0x0400 1 7) = .next { idle [] with resp := .busError } ∧
    after (idle []) (.write 0x0002 4 7) = .next { idle [] with resp := .busError } :=
  ⟨by decide, eq_of_answers (by decide), eq_of_answers (by decide), eq_of_answers (by decide)⟩

/-- V-H12, V-H16: ERR acknowledged; `irq` rises with IE. -/
theorem test_ack_and_irq :
    after { idle [] with err := true, errCode := .badSequence } (.write 0x010 4 0x4) =
      .next { idle [] with resp := .written } ∧
    ({ idle [] with err := true, errCode := .emptyInput }).irq = false ∧
    ({ idle [] with err := true, errCode := .emptyInput, ie := true }).irq = true :=
  ⟨eq_of_answers (by decide), by decide, by decide⟩

/-- R201: the clearing period ends; a reset while a command runs begins a new one. -/
theorem test_reset :
    step State.reset = .next (idle []) ∧ after ((abcCoded).start .build) .reset = .next State.reset :=
  ⟨eq_of_answers (by decide), eq_of_answers (by decide)⟩

/-- A table row placed by the host runs first after reset. -/
theorem test_placed_word :
    step (State.reset.withFetchWord 32 0x3) =
      .next { idle [] with err := true, errCode := .badSequence } :=
  eq_of_answers (by decide)

/-! ### Witnesses: states that meet the hypotheses of the obligations -/

theorem leafOk_leaf {w : Word} {x : Sym} (h : w ≠ 0) : (leaf w x).LeafOk := ⟨rfl, rfl, h, rfl, rfl⟩

theorem witness_tables_abcQueued : abcQueued.TablesOk := ⟨by decide, by decide, by decide, by decide⟩

theorem witness_tree_abcQueued : abcQueued.TreeOk where
  leafCount := by decide +kernel
  leafFirst := by decide +kernel
  leaves i hi := by
    have hi : i < 3 := hi
    interval_cases i <;> exact leafOk_leaf (by decide)
  symbols := by decide +kernel
  internals i hi h := absurd hi (Nat.not_lt.mpr h)
  unallocated := by decide +kernel
  members := by decide +kernel
  empty := by decide +kernel
  queued _ := by decide +kernel
  finished := by decide +kernel

/-- MergeJoinsTheTwoLeastNodes, third clause: nodes 2 and 1 are the two least (V-T2). -/
theorem witness_merge :
    abcQueued.phase = .queued ∧ abcQueued.IsLeast abcQueued.pq 2 ∧ abcQueued.IsLeast (abcQueued.pq.erase 2) 1 ∧
      (abcQueued.weightAt 2).toNat + (abcQueued.weightAt 1).toNat ≤ 0xFFFFFFFF := by
  unfold State.IsLeast State.KeyLess
  decide +kernel

/-- MergeJoinsTheTwoLeastNodes, second clause: the sum is 0x1_0000_0000 (V-T18), one above the largest weight. -/
theorem witness_merge_overflow :
    overQueued.phase = .queued ∧ overQueued.IsLeast overQueued.pq 1 ∧ overQueued.IsLeast (overQueued.pq.erase 1) 0 ∧
      (overQueued.weightAt 1).toNat + (overQueued.weightAt 0).toNat > 0xFFFFFFFF := by
  unfold State.IsLeast State.KeyLess
  decide +kernel

/-- MergeJoinsTheTwoLeastNodes, first clause, and FinishMakesTheLastNodeTheRoot: one queued node (V-T4, V-T5). -/
theorem witness_finish : abcMerged.phase = .queued ∧ abcMerged.pq = [4] ∧ abcMerged.pq.length < 2 := by decide

theorem internalOk_abc3 {s : State} (h3 : s.nodeAt 3 = inner 3 2 1) (h2 : s.nodeAt 2 = leaf 1 0x43)
    (h1 : s.nodeAt 1 = leaf 2 0x42) : s.InternalOk 3 := by
  constructor <;> simp [h3, h2, h1, inner, leaf]

theorem internalOk_abc4 {s : State} (h4 : s.nodeAt 4 = inner 8 3 0) (h3 : s.nodeAt 3 = inner 3 2 1)
    (h0 : s.nodeAt 0 = leaf 5 0x41) : s.InternalOk 4 := by
  constructor <;> simp [h4, h3, h0, inner, leaf]

theorem witness_tree_abcMerged : abcMerged.TreeOk where
  leafCount := by decide +kernel
  leafFirst := by decide +kernel
  leaves i hi := by
    have hi : i < 3 := hi
    interval_cases i <;> exact leafOk_leaf (by decide)
  symbols := by decide +kernel
  internals i hi h := by
    have hi : i < 5 := hi
    have h : 3 ≤ i := h
    interval_cases i
    · exact internalOk_abc3 (by decide) (by decide) (by decide)
    · exact internalOk_abc4 (by decide) (by decide) (by decide)
  unallocated := by decide +kernel
  members := by decide +kernel
  empty := by decide +kernel
  queued _ := by decide +kernel
  finished := by decide +kernel

theorem witness_tree_abcBuilt : abcBuilt.TreeOk where
  leafCount := by decide +kernel
  leafFirst := by decide +kernel
  leaves i hi := by
    have hi : i < 3 := hi
    interval_cases i <;> exact leafOk_leaf (by decide)
  symbols := by decide +kernel
  internals i hi h := by
    have hi : i < 5 := hi
    have h : 3 ≤ i := h
    interval_cases i
    · exact internalOk_abc3 (by decide) (by decide) (by decide)
    · exact internalOk_abc4 (by decide) (by decide) (by decide)
  unallocated := by decide +kernel
  members := by decide +kernel
  empty := by decide +kernel
  queued := by decide +kernel
  finished _ := by decide +kernel

theorem witness_forest_abcBuilt : abcBuilt.ForestOk := by
  unfold State.ForestOk
  decide +kernel

/-- StepKeepsTheGreedyOrder: node 3 joins nodes 2 and 1, node 4 joins nodes 3 and 0 (V-T2, V-T3). -/
theorem witness_greedy_abcBuilt : abcBuilt.GreedyOk := by
  have order : ∀ k a b : NodeId, (k, a, b) = (3, 2, 1) ∨ (k, a, b) = (4, 3, 0) →
      abcBuilt.FreeBefore k a ∧ abcBuilt.FreeBefore k b ∧ a ≠ b ∧ ∀ n (h : n < k.val),
        abcBuilt.FreeBefore k ⟨n, h.trans k.isLt⟩ → (⟨n, h.trans k.isLt⟩ : NodeId) ≠ a →
          abcBuilt.KeyLess a ⟨n, h.trans k.isLt⟩ ∧
            ((⟨n, h.trans k.isLt⟩ : NodeId) ≠ b → abcBuilt.KeyLess b ⟨n, h.trans k.isLt⟩) := by
    unfold State.FreeBefore State.KeyLess
    rintro k a b (h | h) <;> cases h <;> decide +kernel
  intro k a b hl hn ha hb
  have hl : 3 ≤ k.val := hl
  have hn : k.val < 5 := hn
  have hk : k = 3 ∨ k = 4 := by
    rcases (by omega : k.val = 3 ∨ k.val = 4) with h | h
    · exact .inl (Fin.ext h)
    · exact .inr (Fin.ext h)
  have hab : (k, a, b) = (3, 2, 1) ∨ (k, a, b) = (4, 3, 0) := by
    rcases hk with rfl | rfl
    · exact .inl (by rw [Fin.ext (a := a) (b := 2) (by rw [← ha]; decide), Fin.ext (a := b) (b := 1) (by rw [← hb]; decide)])
    · exact .inr (by rw [Fin.ext (a := a) (b := 3) (by rw [← ha]; decide), Fin.ext (a := b) (b := 0) (by rw [← hb]; decide)])
  obtain ⟨fa, fb, ne, least⟩ := order k a b hab
  exact ⟨fa, fb, ne, fun i hi => least i.val hi.1 hi⟩

/-- The code statements: a finished tree of three leaves on which GEN_CODES answers a next state (V-C1). -/
theorem witness_genCodes :
    abcBuilt.finished = true ∧ 2 ≤ abcBuilt.nleaf.toNat ∧ exec .genCodes abcBuilt = .next abcCoded ∧
      (abcCoded.codeAt 0x41).valid = true ∧ (abcCoded.codeAt 0x42).valid = true :=
  ⟨by decide, by decide, test_genCodes, by decide, by decide⟩

theorem witness_inv_abcCoded : abcCoded.Inv where
  tables := ⟨by decide, by decide, by decide, by decide⟩
  flags := ⟨by decide, by decide⟩
  tree :=
    { leafCount := by decide
      leafFirst := by decide +kernel
      leaves := witness_tree_abcBuilt.leaves
      symbols := by decide +kernel
      internals := fun i hi h => by
        have hi : i < 5 := hi
        have h : 3 ≤ i := h
        interval_cases i
        · exact internalOk_abc3 (by decide) (by decide) (by decide)
        · exact internalOk_abc4 (by decide) (by decide) (by decide)
      unallocated := by decide +kernel
      members := by decide +kernel
      empty := by decide +kernel
      queued := by decide +kernel
      finished := fun _ => by decide +kernel }
  forest := witness_forest_abcBuilt
  greedy := witness_greedy_abcBuilt
  weights := ⟨by decide, fun _ => by decide +kernel⟩
  codes := ⟨fun _ => by decide +kernel, by decide⟩

theorem witness_tree_oneBuilt : oneBuilt.TreeOk where
  leafCount := by decide +kernel
  leafFirst := by decide +kernel
  leaves i hi := by
    have hi : i < 1 := hi
    interval_cases i; exact leafOk_leaf (by decide)
  symbols j hj i hi := by
    have hj : j < 1 := hj
    omega
  internals i hi h := absurd hi (Nat.not_lt.mpr h)
  unallocated := by decide +kernel
  members := by decide +kernel
  empty := by decide +kernel
  queued := by decide +kernel
  finished _ := by decide +kernel

/-- DegenerateTreeHasTheEmptyCode. -/
theorem witness_degenerate : oneBuilt.finished = true ∧ oneBuilt.nleaf.toNat = 1 := by decide

/-- The BUILD statements: a table with a present symbol whose total fits; 95_test_vectors.md V-T15 has the largest total. -/
theorem witness_build :
    (∃ x, x < 256 ∧ (idle [(0, 0xFFFFFFFE), (1, 1)]).freqAt x ≠ 0) ∧
      (idle [(0, 0xFFFFFFFE), (1, 1)]).freqTotal = 0xFFFFFFFF :=
  ⟨⟨1, by decide, by decide⟩, by decide +kernel⟩

/-- BuildOfEmptyTableRaisesEmptyInput and PqInit's first clause: every frequency is 0 (V-T9). -/
theorem witness_empty_table (x : Nat) : (idle []).freqAt x = 0 := State.freqAt_nil rfl x

/-- PqInitQueuesOneLeafPerPresentSymbol: its list of symbols exists for every state (V-T1's is 0x41, 0x42, 0x43). -/
theorem witness_present : abc.present = [0x41, 0x42, 0x43] := by decide +kernel

/-- The statements about a busy block and about an idle one. -/
theorem witness_busy_idle : (abc.start .build).busy = true ∧ (idle []).busy = false ∧ State.reset.busy = true := by decide

/-- CmdWriteAcceptsOrRecordsError: the least illegal words of each kind, and a legal one. -/
theorem witness_command_words :
    (0x10#32).toNat / 16 ≠ 0 ∧ 7 ≤ (0x7#32).toNat % 16 ∧ (0x6#32) = encode .genCodes := by decide

/-- StepRunsTheDecodedCommand: BUILD written, then a poll of STATUS and a second command, then the engine. -/
theorem witness_step_runs :
    ({ abc with sched := .write 0x000C#15 4 0x5#32 :: ([Event.read 0x010#15 4, Event.write 0x000C#15 4 0x1#32] ++ [Event.engine]) }).busy
      = false ∧
    decode 0x5#32 = .ok .build ∧
    ∀ e ∈ [Event.read 0x010#15 4, .write 0x000C#15 4 0x1#32], e.isAccess = true :=
  ⟨by decide, rfl, by decide⟩

/-- BusErrorChangesNoState: a misaligned word and an aligned byte. -/
theorem witness_bus_error : (0x7FFF#15).toNat % 4 ≠ 0 ∧ (0x0400#15).toNat % 4 = 0 ∧ (1 : Nat) ≠ 4 := by decide

/-- ReservedOffsetsReadZeroAndIgnoreWrites: the ends of the three ranges. -/
theorem witness_reserved :
    regionOf 0x0020 = .reserved ∧ regionOf 0x03FC = .reserved ∧ regionOf 0x0800 = .reserved ∧
    regionOf 0x0FFC = .reserved ∧ regionOf 0x3000 = .reserved ∧ regionOf 0x3FFC = .reserved ∧
    regionOf 0x001C = .pqcount ∧ regionOf 0x0400 = .freq 0 ∧ regionOf 0x07FC = .freq 255 ∧
    regionOf 0x1000 = .node 0 0 ∧ regionOf 0x2FFC = .node 511 3 ∧ regionOf 0x4000 = .code 0 0 ∧
    regionOf 0x7FFC = .code 255 15 := by decide

/-- IeChangesOnlyByCtrlOrReset, HostAccessesNeverChangeTheTree: a step that is neither, a FREQ write. -/
theorem witness_other_event :
    after abcBuilt (.write 0x0504 4 100) =
      .next { abcBuilt with freq := [(0x41, 100), (0x42, 2), (0x43, 1)], resp := .written } :=
  eq_of_answers (by decide)

/-- FirstErrorIsKept: V-H11's second error. -/
theorem witness_second_error :
    exec .build { idle [] with err := true, errCode := .badSequence } =
      .next { idle [] with err := true, errCode := .badSequence } :=
  eq_of_answers (by decide +kernel)

/-- DoneRisesAndFallsOnlyAsStated, both clauses: a NOP completes; a W1C of DONE. -/
theorem witness_done :
    ((idle []).start .nop).FlagsOk ∧ step ((idle []).start .nop) = .next { idle [] with done := true } ∧
    ({ idle [] with done := true }).FlagsOk ∧
    after { idle [] with done := true } (.write 0x0010 4 0x2) = .next { idle [] with resp := .written } :=
  ⟨⟨by decide, by decide⟩, eq_of_answers (by decide), ⟨by decide, by decide⟩, eq_of_answers (by decide)⟩

/-- FreqChangesOnlyByHostClearOrReset: a FREQ write, a CLEAR and a reset that change `freq[0x41]`. -/
theorem witness_freq_changes :
    abc.TablesOk ∧ step (abc.start .clear) = .next { idle [] with done := true } ∧
    after abc .reset = .next State.reset ∧ abc.freqAt 0x41 = 5 ∧ (idle []).freqAt 0x41 = 0 :=
  ⟨⟨by decide, by decide, by decide, by decide⟩, eq_of_answers (by decide), eq_of_answers (by decide), by decide, by decide⟩

/-- ClearingPeriodEnds: the state after reset, with a recorded BUSY. -/
theorem witness_clearing :
    ({ State.reset with err := true, errCode := .busy }).engine = .clearing ∧
      ({ State.reset with err := true, errCode := .busy }).EngineMoves := ⟨rfl, .inl rfl⟩

/-- W1COfDoneRacesCompletionBothWays: a NOP in progress. -/
theorem witness_race :
    ((idle []).start .nop).engine = .running .nop ∧
      exec .nop ((idle []).start .nop) = .next { idle [] with done := true } :=
  ⟨by decide, eq_of_answers (by decide)⟩

/-- RaisingCommandWritesOnlyTheError: MERGE from reset (V-T7). -/
theorem witness_raise : exec .merge (idle []) = .next { idle [] with err := true, errCode := .badSequence } :=
  eq_of_answers (by decide +kernel)

/-- BusyExactReadsRevealNoTable: two busy states that agree in `ie`, `done`, `err` and `err_code` and differ in the tree,
the command in progress and the draws. -/
theorem witness_reveals_nothing :
    ({ abcBuilt.start .build with sched := [.read 0x010#15 4] }).busy = true ∧
    ({ oneBuilt.start .clear with sched := [.read 0x010#15 4], draws := 7 }).busy = true ∧
    (abcBuilt.start .build).ie = (oneBuilt.start .clear).ie ∧ (abcBuilt.start .build).done = (oneBuilt.start .clear).done ∧
    (abcBuilt.start .build).err = (oneBuilt.start .clear).err ∧
    (abcBuilt.start .build).errCode = (oneBuilt.start .clear).errCode ∧ abcBuilt.root ≠ oneBuilt.root := by decide

/-- IrqIsEnableAndPending: its hypotheses on the state are those of `witness_busy_idle`; a word that is no command's. -/
theorem witness_no_command (i : Instr) : (0x7#32) ≠ encode i := by cases i <;> decide

/-- BuildFinishesOrStopsAtAnOverflow, first and third clauses: PQ_INIT alone leads to an overflow (V-T16). -/
theorem witness_build_overflow :
    runCommands [.pqInit] (idle [(0, 0xFFFFFFFF), (1, 1)]) = .next { overQueued with done := true } ∧
      ({ overQueued with done := true }).OverflowsNext :=
  ⟨eq_of_answers (by decide +kernel), by decide, 1, 0, witness_merge_overflow.2⟩

/-- The state PQ_INIT leaves with one symbol: V-C5's leaf, queued. -/
def oneQueued : State :=
  { idle [(0x61, 4)] with
    node := [(0, leaf 4 0x61)], nleaf := 1, nnode := 1, pq := [0], phase := .queued, done := true }

/-- BuildFinishesOrStopsAtAnOverflow, second clause: with one leaf no number of MERGEs leads to an overflow. -/
theorem witness_build_no_overflow (m : Nat) (u : State)
    (h : runCommands (.pqInit :: List.replicate m .merge) (idle [(0x61, 4)]) = .next u) : ¬ u.OverflowsNext := by
  have again : ∀ n v, v = oneQueued ∨ v = oneQueued.withFirstError .badSequence →
      runCommands (List.replicate n .merge) v = .next u → u.pq.length = 1 := by
    intro n
    induction n with
    | zero => rintro v (rfl | rfl) h <;> cases h <;> rfl
    | succ n ih =>
      intro v hv h
      have hm : exec .merge v = .next (oneQueued.withFirstError .badSequence) := by
        rcases hv with rfl | rfl <;> exact eq_of_answers (by decide +kernel)
      rw [List.replicate_succ, runCommands, hm] at h
      exact ih _ (.inr rfl) h
  have hp : exec .pqInit (idle [(0x61, 4)]) = .next oneQueued := eq_of_answers (by decide +kernel)
  rw [runCommands, hp] at h
  have one := again m _ (.inl rfl) h
  rintro ⟨_, a, b, ha, hb, _⟩
  have e := List.length_erase_of_mem ha.1
  have p := List.length_pos_of_mem hb.1
  omega

/-- The next state of a reachable one when the host makes one more access or the engine moves. -/
theorem reachable_event {s t : State} (hs : Reachable s) (he : s.sched = []) (e : Event)
    (h : step { s with sched := [e] } = .next t) : Reachable t := by
  have := hs.addEvents s [e]
  rw [he] at this
  exact this.step _ t h

/-- ReachableIdleStatesMeetR51: an idle state of each phase is reached, by a frequency, PQ_INIT, FINISH and GEN_CODES. -/
theorem witness_reachable_phases :
    (∃ s, Reachable s ∧ s.busy = false ∧ s.phase = .queued) ∧ (∃ s, Reachable s ∧ s.busy = false ∧ s.phase = .built) ∧
      (∃ s, Reachable s ∧ s.busy = false ∧ s.phase = .coded) := by
  have r0 : Reachable (idle []) := .step State.reset (idle []) .start (eq_of_answers (by decide))
  have r1 : Reachable { idle [(0x61, 4)] with resp := .written } :=
    reachable_event r0 rfl (.write 0x0584 4 4) (eq_of_answers (by decide))
  have command : ∀ (i : Instr) (s t : State), Reachable s → s.sched = [] → s.busy = false → s.resp = .written →
      exec i (s.start i) = .next t → Reachable t := by
    intro i s t hs he hb hr ht
    have accepted : Reachable (s.start i) := by
      refine reachable_event hs he (.write 0x000C 4 (encode i)) ?_
      show Host.Outcome.next { State.issue { s with sched := [] } (encode i) with resp := .written } = _
      rw [← he, ← hr]
      have hd : decode (encode i) = .ok i := by cases i <;> rfl
      simp only [State.issue, hb, hd]
      rfl
    refine accepted.step _ t ?_
    have hs' : (s.start i).sched = [] := he
    simp only [step, hs', engineStep]
    exact ht
  have r2 : Reachable { oneQueued with resp := .written } :=
    command .pqInit _ _ r1 rfl rfl rfl (eq_of_answers (by decide +kernel))
  have r3 := command .finish _ { oneBuilt with resp := .written } r2 rfl rfl rfl (eq_of_answers (by decide +kernel))
  have r4 := command .genCodes _ { oneBuilt with code := [(0x61, ⟨true, 0, 0⟩)], phase := .coded, resp := .written } r3 rfl rfl
    rfl (eq_of_answers (by decide +kernel))
  exact ⟨⟨_, r2, rfl, rfl⟩, ⟨_, r3, rfl, rfl⟩, ⟨_, r4, rfl, rfl⟩⟩

/-- ReachableIdleStatesMeetR51 (phase EMPTY), ReachableStatesNeverStop: the state after the clearing period is reached. -/
theorem witness_reachable : Reachable (idle []) ∧ (idle []).busy = false :=
  ⟨.step State.reset (idle []) .start (eq_of_answers (by decide)), by decide⟩

end Sys2Proof.Machine.Tests
end

section
/-! SUPPORT. Fields of words: an append as a sum, and a field read off bit by bit. -/

namespace Sys2Proof.Machine

theorem toNat_append_eq_mul_add {m n : Nat} (x : BitVec m) (y : BitVec n) :
    (x ++ y).toNat = x.toNat * 2 ^ n + y.toNat := by
  rw [BitVec.toNat_append, ← Nat.shiftLeft_add_eq_or_of_lt y.isLt, Nat.shiftLeft_eq]

/-- Two words that agree in bits `i` to `i + k - 1` agree in the field there. -/
theorem field_congr {v w : Word} {i k : Nat} (h : ∀ j < k, v.getLsbD (i + j) = w.getLsbD (i + j)) :
    v.toNat / 2 ^ i % 2 ^ k = w.toNat / 2 ^ i % 2 ^ k := by
  refine Nat.eq_of_testBit_eq fun j => ?_
  rw [Nat.testBit_mod_two_pow, Nat.testBit_mod_two_pow, Nat.testBit_div_two_pow, Nat.testBit_div_two_pow, Nat.add_comm j i]
  by_cases hj : j < k
  · exact congrArg _ (h j hj)
  · simp [hj]

end Sys2Proof.Machine
end

section
/-! SUPPORT. The words of the registers and windows as numbers (10_state.md R41 to R49). -/

namespace Sys2Proof.Machine

variable {s : State}

theorem errBits_toNat (e : ErrCode) : (errBits e).toNat = errNumber e := by cases e <;> rfl

theorem phaseBits_toNat (p : Phase) : (phaseBits p).toNat = phaseNumber p := by cases p <;> rfl

theorem errNumber_lt (e : ErrCode) : errNumber e < 16 := by cases e <;> decide

theorem phaseNumber_lt (p : Phase) : phaseNumber p < 4 := by cases p <;> decide

theorem tagBit_toNat (g : Tag) : (tagBit g).toNat = if g = .internal then 1 else 0 := by cases g <;> rfl

theorem State.degen_iff :
    s.degen = true ↔ (s.phase = .built ∨ s.phase = .coded) ∧ (s.nodeAt s.root.toNat).tag = .leaf := by
  simp [State.degen, State.finished_iff]

theorem State.ctrlWord_eq (s : State) : s.ctrlWord = if s.ie then 1 else 0 := by
  unfold State.ctrlWord
  cases s.ie <;> rfl

/-- The STATUS word by its fields (R43). -/
theorem State.statusWord_toNat (s : State) :
    s.statusWord.toNat = s.busy.toNat + 2 * s.done.toNat + 4 * s.err.toNat + 8 * s.degen.toNat +
      256 * errNumber s.errCode + 65536 * phaseNumber s.phase := by
  simp only [State.statusWord, toNat_append_eq_mul_add, BitVec.toNat_ofBool, errBits_toNat, phaseBits_toNat,
    BitVec.toNat_ofNat]
  omega

/-- The exact STATUS word by its fields, `busy` being 0. -/
theorem State.statusWord_toNat_of_idle (hb : s.busy = false) :
    s.statusWord.toNat = 2 * s.done.toNat + 4 * s.err.toNat +
      8 * (if (s.phase = .built ∨ s.phase = .coded) ∧ (s.nodeAt s.root.toNat).tag = .leaf then 1 else 0) +
      256 * errNumber s.errCode + 65536 * phaseNumber s.phase := by
  have hd : s.degen.toNat =
      if (s.phase = .built ∨ s.phase = .coded) ∧ (s.nodeAt s.root.toNat).tag = .leaf then 1 else 0 := by
    simp only [← State.degen_iff]
    cases s.degen <;> rfl
  rw [State.statusWord_toNat, hb, hd]
  simp

/-- The three flags of the STATUS word that a busy read shows (R43). -/
theorem State.statusWord_flags (s : State) :
    s.statusWord.getLsbD 0 = s.busy ∧ s.statusWord.getLsbD 1 = s.done ∧ s.statusWord.getLsbD 2 = s.err := by
  simp only [State.statusWord, BitVec.getLsbD_append]
  simp

/-- A bit of STATUS that is neither DEGEN nor PHASE is exact in a busy read (20_memory.md R68). -/
theorem getLsbD_drawn_status (v d : Word) {j : Nat} (h : statusDrawMask.getLsbD j = false) :
    ((v &&& ~~~statusDrawMask) ||| (d &&& statusDrawMask)).getLsbD j = v.getLsbD j := by
  by_cases hj : j < 32
  · rw [BitVec.getLsbD_or, BitVec.getLsbD_and, BitVec.getLsbD_and, BitVec.getLsbD_not, h]
    simp [hj]
  · simp [BitVec.getLsbD_of_ge, Nat.not_lt.mp hj]

/-- A field of STATUS apart from DEGEN and PHASE is exact in a busy read (20_memory.md R68). -/
theorem field_drawn_status (v d : Word) {i k : Nat} (h : ∀ j < k, statusDrawMask.getLsbD (i + j) = false) :
    ((v &&& ~~~statusDrawMask) ||| (d &&& statusDrawMask)).toNat / 2 ^ i % 2 ^ k = v.toNat / 2 ^ i % 2 ^ k :=
  field_congr fun j hj => getLsbD_drawn_status v d (h j hj)

/-- NODE_INFO by its fields (R48). -/
theorem nodeWord_info_toNat (n : Node) :
    (nodeWord n 1).toNat =
      2147483648 * n.valid.toNat + 1073741824 * (if n.tag = .internal then 1 else 0) + n.sym.toNat := by
  simp only [nodeWord, toNat_append_eq_mul_add, BitVec.toNat_ofBool, tagBit_toNat, BitVec.toNat_ofNat]
  omega

/-- NODE_LINK by its fields (R48). -/
theorem nodeWord_link_toNat (n : Node) : (nodeWord n 2).toNat = n.left.toNat + 65536 * n.right.toNat := by
  simp only [nodeWord, toNat_append_eq_mul_add, BitVec.toNat_ofNat]
  omega

/-- A leaf names NIL on both sides (R25). -/
theorem nodeWord_link_of_leaf {n : Node} (h : n.LeafOk) : nodeWord n 2 = 0x01FF01FF#32 := by
  rw [nodeWord, h.left, h.right]
  rfl

theorem nodeWord_zero {k : Nat} : nodeWord Node.zero k = 0 := by
  match k with
  | 0 => rfl
  | 1 => rfl
  | 2 => rfl
  | _ + 3 => rfl

/-- CODE_INFO by its fields (R49). -/
theorem codeWord_info_toNat (c : Code) : (codeWord c 0).toNat = 2147483648 * c.valid.toNat + c.len.toNat := by
  simp only [codeWord, if_pos, toNat_append_eq_mul_add, BitVec.toNat_ofBool, BitVec.toNat_ofNat]
  omega

/-- Digit `j` of a code is bit `j mod 32` of CODE_BITS[`j div 32`] (R49). -/
theorem codeWord_getLsbD (c : Code) {j : Nat} (h : j < 256) :
    (codeWord c (1 + j / 32)).getLsbD (j % 32) = c.bits.getLsbD j := by
  have hle : 1 + j / 32 ≤ 8 := by omega
  have hbit : j % 32 < 32 := by omega
  have hj : 32 * (j / 32) + j % 32 = j := Nat.div_add_mod j 32
  simp [codeWord, hle, hbit, hj]

theorem codeWord_reserved (c : Code) {k : Nat} (h : 9 ≤ k) : codeWord c k = 0 := by
  rw [codeWord, if_neg (by omega), if_neg (by omega)]

end Sys2Proof.Machine
end

section
/-! SUPPORT. Reads and writes of a place that is known by its region (20_memory.md R60, R65 to R68). -/

namespace Sys2Proof.Machine

variable {s : State} {a : Nat} {r : Region}

/-- An idle read returns the exact word (20_memory.md R67). -/
theorem State.readsAs_of_idle (hb : s.busy = false) (ha : a % 4 = 0) (hr : regionOf (BitVec.ofNat 15 a) = r) :
    s.ReadsAs a (s.exactWord r) :=
  hr ▸ State.readsAs_of ha (by simp [hb])

/-- A place that no busy read draws returns the exact word in every state (20_memory.md R68). -/
theorem State.readsAs_of_undrawn (hd : ∀ d, s.drawnWord d r = none) (ha : a % 4 = 0)
    (hr : regionOf (BitVec.ofNat 15 a) = r) : s.ReadsAs a (s.exactWord r) := by
  subst hr
  exact State.readsAs_of ha fun _ => hd _

theorem State.writesTo_writeRegion (v : Word) (ha : a % 4 = 0) (hr : regionOf (BitVec.ofNat 15 a) = r) :
    s.WritesTo a v (s.writeRegion v r) :=
  hr ▸ State.writesTo_of ha

/-- A busy read of STATUS: the flags and the error code are exact and the reserved bits 0, whatever DEGEN and PHASE
show. -/
theorem State.drawsAs_status (hb : s.busy = true) :
    ∃ w, s.DrawsAs 0x010 w ∧ w.getLsbD 0 = true ∧ w.getLsbD 1 = s.done ∧ w.getLsbD 2 = s.err ∧
      w.toNat / 16 % 16 = 0 ∧ w.toNat / 256 % 16 = errNumber s.errCode ∧ w.toNat / 4096 % 16 = 0 ∧
      w.toNat / 262144 = 0 := by
  obtain ⟨hbusy, hdone, herr⟩ := s.statusWord_flags
  have hnum := s.statusWord_toNat
  have hcode := errNumber_lt s.errCode
  have hphase := phaseNumber_lt s.phase
  have hbusyLe := Bool.toNat_le s.busy
  have hdoneLe := Bool.toNat_le s.done
  have herrLe := Bool.toNat_le s.err
  have hdegenLe := Bool.toNat_le s.degen
  have field := fun i k => field_drawn_status s.statusWord (Config.draw s.draws) (i := i) (k := k)
  refine ⟨_, State.drawsAs_of (by decide) hb rfl, ?_, ?_, ?_, ?_, ?_, ?_, ?_⟩
  · rw [getLsbD_drawn_status _ _ (by decide), hbusy, hb]
  · rw [getLsbD_drawn_status _ _ (by decide), hdone]
  · rw [getLsbD_drawn_status _ _ (by decide), herr]
  · have := field 4 4 (by decide)
    omega
  · have := field 8 4 (by decide)
    omega
  · have := field 12 4 (by decide)
    omega
  · have := field 18 14 (by decide)
    omega

/-- Word `k` of `node[i]`, read while idle (10_state.md R48). -/
theorem State.readsAs_node {i k : Nat} (hb : s.busy = false) (hi : i < 512) (hk : k < 4)
    (ha : a = 0x1000 + 16 * i + 4 * k) : s.ReadsAs a (nodeWord (s.nodeAt i) k) :=
  State.readsAs_of_idle hb (by omega) (ha ▸ regionOf_node hi hk)

/-- Word `k` of `code[x]`, read while idle (10_state.md R49). -/
theorem State.readsAs_code {x k : Nat} (hb : s.busy = false) (hx : x < 256) (hk : k < 16) :
    s.ReadsAs (0x4000 + 64 * x + 4 * k) (codeWord (s.codeAt x) k) :=
  State.readsAs_of_idle hb (by omega) (regionOf_code hx hk)

/-- A dropped write of the FREQ window records BUSY (20_memory.md R66). -/
theorem State.writesTo_freq_of_busy {x : Nat} (v : Word) (hx : x < 256) (hb : s.busy = true) :
    s.WritesTo (0x400 + 4 * x) v (s.withFirstError .busy) := by
  have h := State.writesTo_writeRegion (s := s) v (by omega) (regionOf_freq hx)
  rwa [State.writeRegion, State.writeFreq, if_pos hb, State.setErr_eq] at h

/-- A write of the FREQ window that is taken (20_memory.md R66). -/
theorem State.writesTo_freq_of_idle {x : Nat} (v : Word) (hx : x < 256) (hb : s.busy = false) :
    s.WritesTo (0x400 + 4 * x) v (s.setFreq x v) := by
  have h := State.writesTo_writeRegion (s := s) v (by omega) (regionOf_freq hx)
  rwa [State.writeRegion, State.writeFreq, hb, if_neg Bool.false_ne_true] at h

end Sys2Proof.Machine
end

section
/-! SUPPORT. The command words and the decoder (30_encoding.md R90 to R93). -/

namespace Sys2Proof.Machine

theorem decode_encode (i : Instr) : decode (encode i) = .ok i := by cases i <;> rfl

/-- Only a command's own word decodes to it. -/
theorem eq_encode_of_decode {v : Word} {i : Instr} (h : decode v = .ok i) : v = encode i := by
  have hv : v.extractLsb' 4 28 ++ v.extractLsb' 0 4 = v :=
    (BitVec.extractLsb'_append_extractLsb'_eq_extractLsb' (by rfl)).trans BitVec.extractLsb'_eq_self
  unfold decode at h
  split at h
  · cases h
  · rename_i hrsv
    have hop : v.extractLsb' 0 4 = opcode i := by
      split at h <;> cases h <;> exact BitVec.eq_of_toNat_eq ‹_›
    rw [← hv, not_not.mp hrsv, hop, encode]

end Sys2Proof.Machine
end

section
/-! SUPPORT. What a completion does to the control state (60_exceptions.md R172), what changes `ie` (10_state.md R32),
and `irq` after each operation (10_state.md R38). -/

namespace Sys2Proof.Machine

variable {s t : State}

/-- A completion ends the command with DONE or with an error, and writes nothing else of the control state. -/
theorem exec_control_cases {i : Instr} (h : exec i s = .next t) :
    ∃ u, ControlKept s u ∧
      (t = { u with engine := .idle, done := true } ∨ ∃ e, t = { u.withFirstError e with engine := .idle }) := by
  have hk := bodyOf_keeps i s
  rcases exec_eq_next.mp h with ⟨u, hu, ht⟩ | ⟨e, u, hu, ht⟩ <;> rw [hu] at hk
  · exact ⟨u, hk.2, .inl ht⟩
  · exact ⟨u, hk.2, .inr ⟨e, ht⟩⟩

theorem exec_ie {i : Instr} (h : exec i s = .next t) : t.ie = s.ie := by
  obtain ⟨u, hk, rfl | ⟨e, rfl⟩⟩ := exec_control_cases h
  · exact hk.ie
  · exact hk.ie

theorem State.issue_ie (s : State) (v : Word) : (s.issue v).ie = s.ie := by
  rcases State.issue_cases s v with ⟨_, h⟩ | ⟨_, _, h⟩ | ⟨_, i, _, h⟩ <;> rw [h] <;> rfl

/-- Of the host's writes only a whole word at CTRL changes `ie`. -/
theorem State.hostWrite_ie {a : Addr} {n : Nat} (v : Word) (h : ¬ (a = 0x0008#15 ∧ n = 4)) :
    (s.hostWrite a n v).ie = s.ie := by
  rcases State.hostWrite_cases s a n v with
    ⟨_, hw⟩ | ⟨hn, t, hw, rfl | ⟨ha, _⟩ | ⟨_, rfl⟩ | ⟨_, rfl⟩ | ⟨_, rfl⟩ | ⟨x, _, _, _, rfl⟩⟩
  · rw [hw]
  · rw [hw]
  · exact absurd ⟨ha, hn⟩ h
  · rw [hw]; exact State.issue_ie s v
  · rw [hw, State.writeStatus_eq]
  · rw [hw]; rfl
  · rw [hw]; rfl

/-- A command's own word is accepted while idle (60_exceptions.md R171). -/
theorem State.issue_encode (hb : s.busy = false) (i : Instr) : s.issue (encode i) = s.start i := by
  simp [State.issue, hb, decode_encode]

theorem step_of_reset {es : List Event} (hs : s.sched = .reset :: es) :
    step s = .next ({ s with sched := es }).applyReset := by
  rw [step, hs]
  rfl

theorem State.irq_iff : s.irq = true ↔ s.ie = true ∧ (s.done = true ∨ s.err = true) := by simp [State.irq]

/-- A recorded error keeps the interrupt pending. -/
theorem State.withFirstError_irq (s : State) (e : ErrCode) : (s.withFirstError e).irq = s.ie := by
  simp [State.irq, State.withFirstError]

theorem State.writeStatus_irq_iff {v : Word} :
    (s.writeStatus v).irq = true ↔
      s.ie = true ∧ ((s.done = true ∧ v.getLsbD 1 = false) ∨ (s.err = true ∧ v.getLsbD 2 = false)) := by
  simp [State.irq_iff, State.writeStatus_eq]

theorem State.start_irq_iff {i : Instr} : (s.start i).irq = true ↔ s.ie = true ∧ s.err = true := by
  simp [State.irq_iff]

/-- A write to CMD that is dropped or illegal records an error (60_exceptions.md R171). -/
theorem State.issue_irq_of_refused {v : Word} (h : s.busy = true ∨ ∀ i, v ≠ encode i) : (s.issue v).irq = s.ie := by
  rcases State.issue_cases s v with ⟨_, hi⟩ | ⟨_, _, hi⟩ | ⟨hb, i, hd, _⟩
  · rw [hi, State.withFirstError_irq]
  · rw [hi, State.withFirstError_irq]
  · rcases h with hb' | hv
    · simp [hb] at hb'
    · exact absurd (eq_encode_of_decode hd) (hv i)

theorem exec_irq {i : Instr} (h : exec i s = .next t) : t.irq = s.ie := by
  obtain ⟨u, hk, rfl | ⟨e, rfl⟩⟩ := exec_control_cases h
  · simp [State.irq, hk.ie]
  · exact (State.withFirstError_irq u e).trans hk.ie

end Sys2Proof.Machine
end

section
/-! SUPPORT. What a consistent tree says of the queue and the root (10_state.md R29, R30). -/

namespace Sys2Proof.Machine

variable {s : State}

theorem State.TreeOk.length_pq_le (h : s.TreeOk) : s.pq.length ≤ 256 := by
  have hleaf := h.leafCount
  have hfirst := h.leafFirst
  cases hp : s.phase with
  | empty =>
    obtain ⟨-, -, hq, -⟩ := h.empty hp
    simp [hq]
  | queued =>
    obtain ⟨-, hsum, -⟩ := h.queued hp
    omega
  | built =>
    obtain ⟨-, -, hq, -⟩ := h.finished (State.finished_iff.mpr (.inl hp))
    simp [hq]
  | coded =>
    obtain ⟨-, -, hq, -⟩ := h.finished (State.finished_iff.mpr (.inr hp))
    simp [hq]

/-- Without a finished tree the root is NIL (R30). -/
theorem State.TreeOk.root_of_unfinished (h : s.TreeOk) (hf : s.finished = false) : s.root = Config.nil := by
  cases hp : s.phase with
  | empty =>
    obtain ⟨-, -, -, hroot⟩ := h.empty hp
    exact hroot
  | queued =>
    obtain ⟨-, -, hroot, -⟩ := h.queued hp
    exact hroot
  | built => simp [State.finished, hp] at hf
  | coded => simp [State.finished, hp] at hf

/-- An entry that is allocated to no node, NIL among them, reads 0 (R27, R48). -/
theorem State.nodeAt_of_unallocated {i : Nat} (h : i = 511 ∨ (s.TreeOk ∧ s.nnode.toNat ≤ i)) :
    s.nodeAt i = Node.zero := by
  by_cases hi : 511 ≤ i
  · exact State.nodeAt_of_ge hi
  · obtain rfl | ⟨ht, hn⟩ := h
    · omega
    · exact ht.unallocated i (by omega) hn

end Sys2Proof.Machine
end

section
/-! CLAIMS. The statements of the state and its registers (10_state.md). -/

namespace Sys2Proof.Machine

/-- Settles O9: ID and PARAM are never drawn, and a write to either is ignored. -/
theorem idAndParamAreConstant : Obligations.IdAndParamAreConstant := fun s =>
  ⟨State.readsAs_of_undrawn (r := .id) (fun _ => rfl) rfl rfl, by decide,
    State.readsAs_of_undrawn (r := .param) (fun _ => rfl) rfl rfl, rfl,
    fun v => ⟨State.writesTo_writeRegion (r := .id) v rfl rfl, State.writesTo_writeRegion (r := .param) v rfl rfl⟩⟩

/-- Settles O10: CTRL is never drawn, and its write is one field of the state. -/
theorem ctrlHoldsInterruptEnable : Obligations.CtrlHoldsInterruptEnable := fun s v =>
  ⟨State.writesTo_writeRegion (r := .ctrl) v rfl rfl,
    s.ctrlWord_eq ▸ State.readsAs_of_undrawn (r := .ctrl) (fun _ => rfl) rfl rfl, rfl⟩

/-- Settles O11, by the fields of the STATUS word and the write-one-to-clear update. -/
theorem statusFieldsAndW1C : Obligations.StatusFieldsAndW1C :=
  ⟨fun _ hb => ⟨_, State.readsAs_of_idle (r := .status) hb rfl rfl, State.statusWord_toNat_of_idle hb⟩,
    fun _ hb => State.drawsAs_status hb,
    fun s v => s.writeStatus_eq v ▸ State.writesTo_writeRegion (r := .status) v rfl rfl,
    rfl, rfl, rfl, rfl, rfl, rfl⟩

/-- Settles O12, by the fields of the three words and what a consistent tree says of root and queue. -/
theorem rootCountsPqcountRead : Obligations.RootCountsPqcountRead := by
  intro s
  refine ⟨fun hb => ⟨_, State.readsAs_of_idle (r := .root) hb rfl rfl, ?_⟩, fun hb ht hf => ?_,
    fun hb => ⟨_, State.readsAs_of_idle (r := .counts) hb rfl rfl, ?_⟩,
    fun hb ht => ⟨_, State.readsAs_of_idle (r := .pqcount) hb rfl rfl, ?_, ht.length_pq_le⟩,
    fun v => ⟨State.writesTo_writeRegion (r := .root) v rfl rfl, State.writesTo_writeRegion (r := .counts) v rfl rfl,
      State.writesTo_writeRegion (r := .pqcount) v rfl rfl⟩⟩
  · rw [State.exactWord, toNat_append_eq_mul_add, BitVec.toNat_ofNat, Nat.zero_mod, Nat.zero_mul, Nat.zero_add]
  · have h := State.readsAs_of_idle (r := .root) hb (a := 0x014) rfl rfl
    rw [State.exactWord, ht.root_of_unfinished hf] at h
    exact h
  · simp only [State.exactWord, toNat_append_eq_mul_add, BitVec.toNat_ofNat]
    omega
  · have := ht.length_pq_le
    rw [State.exactWord, BitVec.toNat_ofNat]
    omega

/-- Settles O13, by the law of a read after a write of `freq`. -/
theorem freqWindowReadsAndWrites : Obligations.FreqWindowReadsAndWrites := by
  intro s x v hx
  refine ⟨fun hb => State.readsAs_of_idle (r := .freq x) hb (by omega) (regionOf_freq hx),
    State.writesTo_freq_of_busy v hx, fun hb ht => ⟨_, State.writesTo_freq_of_idle v hx hb, ?_, fun y hy => ?_, rfl⟩⟩
  · rw [State.setFreq_freqAt ht.freq, if_pos rfl]
  · rw [State.setFreq_freqAt ht.freq, if_neg hy]

/-- Settles O14, word by word of the entry. -/
theorem nodeWindowWords : Obligations.NodeWindowWords := by
  intro s i hi
  refine ⟨fun k hk v => State.writesTo_writeRegion v (by omega) (regionOf_node hi hk), fun hb => ?_⟩
  have word : ∀ {a} k, k < 4 → a = 0x1000 + 16 * i + 4 * k → s.ReadsAs a (nodeWord (s.nodeAt i) k) :=
    fun _ hk ha => State.readsAs_node hb hi hk ha
  refine ⟨word 0 (by omega) rfl, ⟨_, word 1 (by omega) (by omega), nodeWord_info_toNat _⟩,
    ⟨_, word 2 (by omega) (by omega), nodeWord_link_toNat _⟩, word 3 (by omega) (by omega), fun ht hleaf => ?_,
    fun hfree k hk => ?_⟩
  · exact nodeWord_link_of_leaf (ht.leaves i hleaf) ▸ word 2 (by omega) (by omega)
  · have h := word k hk rfl
    rwa [State.nodeAt_of_unallocated hfree, nodeWord_zero] at h

/-- Settles O15, word by word of the entry. -/
theorem codeWindowWords : Obligations.CodeWindowWords := fun s x hx =>
  ⟨fun _ hk v => State.writesTo_writeRegion v (by omega) (regionOf_code hx hk),
    fun hb => ⟨codeWord (s.codeAt x), fun _ hk => State.readsAs_code hb hx hk, codeWord_info_toNat _,
      fun _ hj => codeWord_getLsbD _ hj, fun _ hk _ => codeWord_reserved _ hk⟩⟩

/-- Settles O19, by the cases of a step. -/
theorem ieChangesOnlyByCtrlOrReset : Obligations.IeChangesOnlyByCtrlOrReset := by
  intro s t h hctrl hreset
  rcases step_cases h with ⟨a, n, es, _, rfl⟩ | ⟨a, n, v, es, hs, rfl⟩ | ⟨es, hs, _⟩ | ⟨_, es, _, engine⟩
  · obtain ⟨r, k, hr, -⟩ := State.hostRead_eq { s with sched := es } a n
    rw [hr]
  · refine State.hostWrite_ie v ?_
    rintro ⟨rfl, rfl⟩
    exact hctrl v es hs
  · exact absurd hs (hreset es)
  · rcases engine with ⟨_, rfl⟩ | ⟨_, rfl⟩ | ⟨i, _, he⟩
    · rfl
    · rfl
    · have hie := exec_ie he
      exact hie

/-- Settles O58, by what each operation leaves of `ie`, `done` and `err`. -/
theorem irqIsEnableAndPending : Obligations.IrqIsEnableAndPending := by
  refine ⟨fun s => State.irq_iff, fun s v => ⟨_, State.writesTo_writeRegion (r := .status) v rfl rfl, ?_⟩,
    fun s v => ⟨_, State.writesTo_writeRegion (r := .ctrl) v rfl rfl, State.irq_iff⟩,
    fun s i hb => ⟨_, State.writesTo_writeRegion (r := .cmd) (encode i) rfl rfl, ?_⟩,
    fun s v h => ⟨_, State.writesTo_writeRegion (r := .cmd) v rfl rfl, State.issue_irq_of_refused h⟩,
    fun s x v hx hb => ⟨_, State.writesTo_freq_of_busy v hx hb, State.withFirstError_irq s .busy⟩,
    fun i s t h => exec_irq h, fun s es hs => ?_⟩
  · exact State.writeStatus_irq_iff
  · rw [State.writeRegion, State.issue_encode hb]
    exact State.start_irq_iff
  · exact ⟨_, step_of_reset hs, rfl⟩

/-- Settles O27: the engine's step ends the clearing period. -/
theorem resetValuesAfterClearing : Obligations.ResetValuesAfterClearing :=
  ⟨rfl, State.reset.endClearing, rfl, rfl, State.freqAt_nil rfl, State.nodeAt_nil rfl, State.codeAt_nil rfl, rfl, rfl, rfl,
    rfl, rfl, rfl, rfl, rfl, rfl, rfl⟩

end Sys2Proof.Machine
end

section
/-! SUPPORT. Accesses that the bus refuses (20_memory.md R62 to R64). -/

namespace Sys2Proof.Machine

variable {s : State} {a : Addr} {n : Nat}

/-- A scheduled event is the next thing that happens (00_scope.md R13). -/
theorem step_of_sched {e : Event} {es : List Event} (hs : s.sched = e :: es) :
    step s = eventStep e { s with sched := es } := by
  rw [step, hs]

theorem wholeWord_eq_false_iff : wholeWord a n = false ↔ a.toNat % 4 ≠ 0 ∨ n ≠ 4 := by
  rw [wholeWord, Bool.and_eq_false_iff, beq_eq_false_iff_ne, beq_eq_false_iff_ne, or_comm]

theorem State.hostRead_of_not_wholeWord (h : wholeWord a n = false) :
    s.hostRead a n = { s with resp := .busError } := by
  rw [State.hostRead, h, if_neg Bool.false_ne_true]

theorem State.hostWrite_of_not_wholeWord (v : Word) (h : wholeWord a n = false) :
    s.hostWrite a n v = { s with resp := .busError } := by
  rw [State.hostWrite, h, if_neg Bool.false_ne_true]

end Sys2Proof.Machine
end

section
/-! CLAIMS. The statements of the host accesses (20_memory.md). -/

namespace Sys2Proof.Machine

/-- Settles O7: the port refuses a read and a write alike, before either reaches a region. -/
theorem busErrorChangesNoState : Obligations.BusErrorChangesNoState := by
  intro s a n v es h hs
  have hw : wholeWord a n = false := wholeWord_eq_false_iff.mpr h
  rcases hs with hread | hwrite
  · rw [step_of_sched hread, eventStep, State.hostRead_of_not_wholeWord hw]
  · rw [step_of_sched hwrite, eventStep, State.hostWrite_of_not_wholeWord v hw]

end Sys2Proof.Machine
end

section
/-! SUPPORT. The decoder by the number a word stands for (30_encoding.md R90, R92, R93). -/

namespace Sys2Proof.Machine

variable {v : Word} {i : Instr}

theorem toNat_encode (i : Instr) : (encode i).toNat = (opcode i).toNat := by cases i <;> rfl

theorem opcode_toNat_lt (i : Instr) : (opcode i).toNat < 7 := by cases i <;> decide

/-- With `RSV = 0` above it, `OP` is the whole word. -/
theorem decode_of_fields (hrsv : v.toNat / 16 = 0) (hop : v.toNat % 16 = (opcode i).toNat) : decode v = .ok i := by
  have hv : v = encode i := BitVec.eq_of_toNat_eq (by rw [toNat_encode]; omega)
  rw [hv, decode_encode]

/-- The command words are the words below 7. -/
theorem exists_decode_eq_error (h : 7 ≤ v.toNat) : ∃ e, decode v = .error e := by
  cases hd : decode v with
  | error e => exact ⟨e, rfl⟩
  | ok i =>
    have hv : v.toNat = (opcode i).toNat := by rw [eq_encode_of_decode hd, toNat_encode]
    exact absurd (opcode_toNat_lt i) (by omega)

end Sys2Proof.Machine
end

section
/-! CLAIMS. The statement of the decoder (30_encoding.md R93). -/

namespace Sys2Proof.Machine

/-- Settles O2: a word whose fields are a command's is that command's own word, and every other word is 7 or more. -/
theorem decodeMapsEveryWord : Obligations.DecodeMapsEveryWord := by
  intro v
  refine ⟨fun hrsv => exists_decode_eq_error (by omega), fun hrsv => ?_⟩
  have hcmd (i : Instr) : v.toNat % 16 = (opcode i).toNat → decode v = .ok i := decode_of_fields hrsv
  exact ⟨hcmd .nop, hcmd .clear, hcmd .pqInit, hcmd .merge, hcmd .finish, hcmd .build, hcmd .genCodes,
    fun hop => exists_decode_eq_error (by omega)⟩

end Sys2Proof.Machine
end

section
/-! SUPPORT. What the tree builder's commands do, each from what decides its outcome (40_tree_builder.md R111 to R114). -/

namespace Sys2Proof.Machine

variable {s : State} {a b r k : NodeId} {q rest : List NodeId}

/-! ### PQ_INIT -/

/-- The present symbols are the only ascending list of them (R112). -/
theorem State.eq_present {S : List Nat} (hasc : S.Pairwise (· < ·)) (hmem : ∀ x, x ∈ S ↔ x < 256 ∧ s.freqAt x ≠ 0) :
    S = s.present :=
  hasc.eq_of_mem_iff State.pairwise_present fun x => (hmem x).trans State.mem_present.symm

/-! ### MERGE -/

/-- The search finds a least element that is known (R111). -/
theorem State.argminKey_of_isLeast (h : s.IsLeast q a) : s.argminKey q = some a := by
  obtain ⟨c, hc⟩ := State.argminKey_isSome (s := s) (List.ne_nil_of_mem h.1)
  rw [hc, (State.isLeast_of_argminKey hc).unique h]

theorem State.popTwo_of_isLeast (ha : s.IsLeast s.pq a) (hb : s.IsLeast (s.pq.erase a) b) :
    s.popTwo = some (a, b, (s.pq.erase a).erase b) :=
  State.popTwo_eq_some.mpr ⟨State.argminKey_of_isLeast ha, State.argminKey_of_isLeast hb, rfl⟩

theorem State.two_le_of_popTwo (h : s.popTwo = some (a, b, rest)) : 2 ≤ s.pq.length := by
  by_contra hlt
  rw [State.popTwo_eq_none.mpr (by omega)] at h
  cases h

theorem mergeBody_of_badSequence (h : s.phase ≠ .queued ∨ s.pq.length < 2) : mergeBody s = .raised .badSequence s := by
  obtain ⟨_, hbody⟩ | ⟨_, _, _, hp, h2, _⟩ := mergeBody_cases s
  · exact hbody
  · have := State.two_le_of_popTwo h2
    exact absurd hp (h.resolve_right (by omega))

/-- With the two nodes known, their sum and the next free entry decide what MERGE does. -/
theorem mergeBody_cases_of_popTwo (hp : s.phase = .queued) (h2 : s.popTwo = some (a, b, rest)) :
    ((s.weightAt a).toNat + (s.weightAt b).toNat > 0xFFFFFFFF ∧ mergeBody s = .raised .weightOverflow s) ∨
    ((s.weightAt a).toNat + (s.weightAt b).toNat ≤ 0xFFFFFFFF ∧
      ((∃ k : NodeId, k.val = s.nnode.toNat ∧ mergeBody s = .ok (s.merged a b rest k)) ∨
       (s.nnode.toNat = 511 ∧ mergeBody s = .stuck .noSuchNode))) := by
  obtain ⟨hbad, _⟩ | ⟨_, _, _, _, h2', hsum⟩ := mergeBody_cases s
  · have := State.two_le_of_popTwo h2
    exact absurd hp (hbad.resolve_right (by omega))
  · rw [h2] at h2'
    cases h2'
    exact hsum

theorem mergeBody_of_overflow (hp : s.phase = .queued) (h2 : s.popTwo = some (a, b, rest))
    (hover : (s.weightAt a).toNat + (s.weightAt b).toNat > 0xFFFFFFFF) : mergeBody s = .raised .weightOverflow s := by
  obtain ⟨_, hbody⟩ | ⟨hfit, _⟩ := mergeBody_cases_of_popTwo hp h2
  · exact hbody
  · omega

theorem mergeBody_of_fit (hp : s.phase = .queued) (h2 : s.popTwo = some (a, b, rest))
    (hfit : (s.weightAt a).toNat + (s.weightAt b).toNat ≤ 0xFFFFFFFF) (hk : k.val = s.nnode.toNat) :
    mergeBody s = .ok (s.merged a b rest k) := by
  obtain ⟨hover, _⟩ | ⟨_, ⟨k', hk', hbody⟩ | ⟨hfull, _⟩⟩ := mergeBody_cases_of_popTwo hp h2
  · omega
  · rwa [Fin.ext (hk.trans hk'.symm)]
  · exact absurd k.isLt (by omega)

theorem weightSum_setWidth (x y : Word) : (weightSum x y).setWidth 32 = x + y := by
  rw [weightSum, BitVec.setWidth_add _ _ (by omega)]
  simp

/-- The arena after a MERGE: the new node at `k`, every other entry as before. -/
theorem State.merged_nodeAt (hn : s.node.wf 511 Node.zero) (i : Nat) :
    (s.merged a b rest k).nodeAt i =
      if i = k.val then parentNode (s.weightAt a + s.weightAt b) a b else s.nodeAt i := by
  rw [← weightSum_setWidth, ← State.setNode_nodeAt hn]
  rfl

/-- MERGE takes two different nodes. -/
theorem ne_of_isLeast_erase (hq : s.pq.Pairwise (· < ·)) (hb : s.IsLeast (s.pq.erase a) b) : a ≠ b := by
  rintro rfl
  exact (nodup_of_pairwise_lt hq).not_mem_erase hb.1

/-- A queue of two or more leaves a free entry for their parent (R113: `k <= 510` always). -/
theorem State.TreeOk.nnode_le_510 (h : s.TreeOk) (hp : s.phase = .queued) (hq : 2 ≤ s.pq.length) :
    s.nnode.toNat ≤ 510 := by
  obtain ⟨-, hsum, -⟩ := h.queued hp
  have := h.leafCount
  omega

/-- The queue after a MERGE: `a` and `b` out, the new node `k` in. -/
theorem State.mem_merged_pq (hq : s.pq.Pairwise (· < ·)) (i : NodeId) :
    i ∈ (s.merged a b ((s.pq.erase a).erase b) k).pq ↔ (i ∈ s.pq ∧ i ≠ a ∧ i ≠ b) ∨ i = k := by
  have hnd := nodup_of_pairwise_lt hq
  simp only [State.merged, mem_insertId, (hnd.erase a).mem_erase_iff, hnd.mem_erase_iff]
  tauto

theorem State.merged_pq_length (h2 : s.popTwo = some (a, b, rest)) (hk : k ∉ s.pq) :
    (s.merged a b rest k).pq.length + 1 = s.pq.length := by
  have hperm := perm_of_popTwo h2
  have hrest : k ∉ rest := fun h => hk (hperm.mem_iff.mpr (by simp [h]))
  have hins := (perm_insertId hrest).length_eq
  have hlen := hperm.length_eq
  simp only [State.merged, List.length_cons] at hins hlen ⊢
  omega

/-! ### FINISH -/

theorem finishBody_of_badSequence (h : s.phase ≠ .queued ∨ s.pq.length ≠ 1) :
    finishBody s = .raised .badSequence s := by
  obtain ⟨_, hbody⟩ | ⟨_, hp, hq, _⟩ := finishBody_cases s
  · exact hbody
  · exact absurd h (by simp [hp, hq])

theorem finishBody_of_singleton (hp : s.phase = .queued) (hq : s.pq = [r]) :
    finishBody s = .ok { s with root := idxOf r, pq := [], phase := .built } := by
  obtain ⟨hbad, _⟩ | ⟨r', _, hq', hbody⟩ := finishBody_cases s
  · exact absurd hbad (by simp [hp, hq])
  · rw [hq] at hq'
    cases hq'
    exact hbody

/-- Among the allocated nodes the leaves are the first `nleaf` (10_state.md R25, R26). -/
theorem State.TreeOk.tag_eq_leaf_iff (h : s.TreeOk) {i : Nat} (hi : i < s.nnode.toNat) :
    (s.nodeAt i).tag = .leaf ↔ i < s.nleaf.toNat := by
  by_cases hl : i < s.nleaf.toNat
  · simp [(h.leaves i hl).tag, hl]
  · simp [(h.internals i hi (by omega)).tag, hl]

/-- A lone queued node is the one created last, and a leaf only where no MERGE was needed (R114). -/
theorem State.TreeOk.of_singleton_pq (h : s.TreeOk) (hp : s.phase = .queued) (hq : s.pq = [r]) :
    r.val + 1 = s.nnode.toNat ∧ ((s.nodeAt r).tag = .leaf ↔ s.nleaf.toNat = 1) := by
  obtain ⟨hpos, hsum, -, i, hi, hlast⟩ := h.queued hp
  rw [hq] at hsum hi
  obtain rfl := List.mem_singleton.mp hi
  simp only [List.length_singleton] at hsum
  refine ⟨hlast, ?_⟩
  rw [h.tag_eq_leaf_iff (by omega)]
  omega

end Sys2Proof.Machine
end

section
/-! CLAIMS. The statements of PQ_INIT, MERGE and FINISH (40_tree_builder.md R112 to R114). -/

namespace Sys2Proof.Machine

/-- Settles O34: the ascending list is the model's own, so PQ_INIT ends in EMPTY_INPUT or in the queued leaves. -/
theorem pqInitQueuesOneLeafPerPresentSymbol : Obligations.PqInitQueuesOneLeafPerPresentSymbol := by
  refine ⟨rfl, fun s S hasc hmem => ?_⟩
  obtain rfl := State.eq_present hasc hmem
  have hlen : s.present.length ≤ 256 := State.length_present_le
  obtain ⟨hnil, hbody⟩ | ⟨hne, hbody⟩ := pqInitBody_cases s
  · exact ⟨fun _ => exec_eq_next.mpr (.inr ⟨_, _, hbody, rfl⟩), fun hne => absurd hnil hne⟩
  · have hnode := State.queueLeaves_nodeAt (s := s) (S := s.present) (by omega)
    have hcount : (BitVec.ofNat 9 s.present.length).toNat = s.present.length := by
      rw [BitVec.toNat_ofNat]
      omega
    refine ⟨fun hnil => absurd hnil hne, fun _ => ⟨_, exec_eq_next.mpr (.inl ⟨_, hbody, rfl⟩),
      fun j hj => ?_, fun j hj => ?_, State.codeAt_nil rfl, hcount, hcount, fun i => mem_firstIds (by omega),
      length_firstIds _, rfl, rfl, rfl, rfl, rfl, rfl⟩⟩
    · exact (hnode j).trans (dif_pos hj)
    · exact (hnode j).trans (dif_neg (Nat.not_lt.mpr hj))

/-- Settles O35: two known least nodes are what MERGE extracts, and a consistent tree has a free entry for their
parent. -/
theorem mergeJoinsTheTwoLeastNodes : Obligations.MergeJoinsTheTwoLeastNodes := by
  refine ⟨rfl, fun s => ⟨fun hbad => ?_, fun a b hp ha hb hover => ?_, fun a b htab htree hp ha hb hfit => ?_⟩⟩
  · exact exec_eq_next.mpr (.inr ⟨_, _, mergeBody_of_badSequence hbad, rfl⟩)
  · have hbody := mergeBody_of_overflow hp (State.popTwo_of_isLeast ha hb) hover
    exact exec_eq_next.mpr (.inr ⟨_, _, hbody, rfl⟩)
  · have h2 := State.popTwo_of_isLeast ha hb
    have hle := htree.nnode_le_510 hp (State.two_le_of_popTwo h2)
    obtain ⟨k, hk⟩ : ∃ k : NodeId, k.val = s.nnode.toNat := ⟨⟨s.nnode.toNat, by omega⟩, rfl⟩
    have hfresh : k ∉ s.pq := fun hm => absurd (htree.members k hm) (by omega)
    have hnode := State.merged_nodeAt (a := a) (b := b) (rest := (s.pq.erase a).erase b) (k := k) htab.node
    rw [hk] at hnode
    refine ⟨ne_of_isLeast_erase htab.pq hb, hle, _, exec_eq_next.mpr (.inl ⟨_, mergeBody_of_fit hp h2 hfit hk, rfl⟩),
      (hnode _).trans (if_pos rfl), BitVec.toNat_add_of_lt (by omega), fun i hi => (hnode i).trans (if_neg hi),
      BitVec.toNat_add_of_lt (show s.nnode.toNat + 1 < 2 ^ 9 by omega), fun i => ?_, State.merged_pq_length h2 hfresh,
      rfl, rfl, rfl⟩
    rw [← hk, ← Fin.ext_iff]
    exact State.mem_merged_pq htab.pq i

/-- Settles O36: the lone queued node becomes the root, and a consistent tree says which node that is. -/
theorem finishMakesTheLastNodeTheRoot : Obligations.FinishMakesTheLastNodeTheRoot := by
  refine ⟨rfl, fun s => ⟨fun hbad => exec_eq_next.mpr (.inr ⟨_, _, finishBody_of_badSequence hbad, rfl⟩),
    fun r hp hq => ?_⟩⟩
  have hdegen : ({ s with root := idxOf r, pq := [], phase := .built, engine := .idle, done := true }).degen = true ↔
      (s.nodeAt r).tag = .leaf := by
    rw [State.degen_iff, idxOf_toNat]
    exact and_iff_right (.inl rfl)
  refine ⟨_, exec_eq_next.mpr (.inl ⟨_, finishBody_of_singleton hp hq, rfl⟩), rfl, idxOf_toNat r, hdegen, fun htree => ?_⟩
  obtain ⟨hlast, hleaf⟩ := htree.of_singleton_pq hp hq
  exact ⟨hlast, hdegen.trans hleaf⟩

end Sys2Proof.Machine
end

section
/-! SUPPORT. Paths in the tree (41_code_table_generator.md R141): what they are made of, which nodes they meet, and how
long they are. -/

namespace Sys2Proof.Machine

variable {s : State} {i k l : Nat} {ds es : List Bool}

/-- The path with these digits leads from node `i` to a leaf that holds symbol `x`. -/
def State.LeadsToSym (s : State) (i : Nat) (ds : List Bool) (x : Nat) : Prop :=
  ∃ l, s.Leads i ds l ∧ (s.nodeAt l).tag = .leaf ∧ (s.nodeAt l).sym.toNat = x

@[simp] theorem State.leads_nil : s.Leads i [] l ↔ i = l := Iff.rfl

@[simp] theorem State.leads_cons {d : Bool} :
    s.Leads i (d :: ds) l ↔ (s.nodeAt i).tag = .internal ∧ s.Leads (s.child i d) ds l := Iff.rfl

theorem State.leads_append : s.Leads i (ds ++ es) l ↔ ∃ k, s.Leads i ds k ∧ s.Leads k es l := by
  induction ds generalizing i with
  | nil => simp
  | cons d ds ih => simp [ih, and_assoc]

/-- The digits say where the path ends. -/
theorem State.Leads.unique (hk : s.Leads i ds k) (hl : s.Leads i ds l) : k = l := by
  induction ds generalizing i with
  | nil => exact hk.symm.trans hl
  | cons d ds ih => exact ih hk.2 hl.2

/-- No path goes on from a leaf. -/
theorem State.Leads.eq_nil_of_leaf (h : s.Leads i ds l) (hi : (s.nodeAt i).tag = .leaf) : ds = [] := by
  cases ds with
  | nil => rfl
  | cons d ds => simp [hi] at h

/-- A path reads only the node arena. -/
theorem State.leads_congr {t : State} (h : t.node = s.node) : t.Leads i ds l ↔ s.Leads i ds l := by
  induction ds generalizing i with
  | nil => rfl
  | cons d ds ih => simp only [State.leads_cons, State.child, State.nodeAt_congr h, ih]

/-- A path to a leaf from a leaf is empty, and from an internal node goes on from one of its children. -/
theorem State.leadsToSym_of_leaf {x : Nat} (hi : (s.nodeAt i).tag = .leaf) :
    s.LeadsToSym i ds x ↔ ds = [] ∧ (s.nodeAt i).sym.toNat = x := by
  constructor
  · rintro ⟨l, hl, -, hx⟩
    obtain rfl := hl.eq_nil_of_leaf hi
    obtain rfl := State.leads_nil.mp hl
    exact ⟨rfl, hx⟩
  · rintro ⟨rfl, hx⟩
    exact ⟨i, rfl, hi, hx⟩

theorem State.leadsToSym_of_internal {x : Nat} (hi : (s.nodeAt i).tag = .internal) :
    s.LeadsToSym i ds x ↔ ∃ d es, ds = d :: es ∧ s.LeadsToSym (s.child i d) es x := by
  constructor
  · rintro ⟨l, hl, hleaf, hx⟩
    cases ds with
    | nil =>
      obtain rfl := State.leads_nil.mp hl
      simp [hi] at hleaf
    | cons d es => exact ⟨d, es, rfl, l, hl.2, hleaf, hx⟩
  · rintro ⟨d, es, rfl, l, hl, hleaf, hx⟩
    exact ⟨l, ⟨hi, hl⟩, hleaf, hx⟩

/-- Neither of two paths from one node to leaves of different symbols goes on from the other (R145). -/
theorem State.LeadsToSym.not_isPrefix {x y : Nat} (hx : s.LeadsToSym i ds x) (hy : s.LeadsToSym i es y) (hne : x ≠ y) :
    ¬ ds <+: es := by
  rintro ⟨rest, rfl⟩
  obtain ⟨l, hl, hleaf, rfl⟩ := hx
  obtain ⟨m, hm, -, rfl⟩ := hy
  obtain ⟨k, hk, hrest⟩ := State.leads_append.mp hm
  obtain rfl := hl.unique hk
  obtain rfl := hrest.eq_nil_of_leaf hleaf
  exact hne (by rw [State.leads_nil.mp hrest])

/-! ### Paths in a consistent tree -/

/-- An allocated internal node lies after the leaves. -/
theorem State.TreeOk.nleaf_le_of_internal (h : s.TreeOk) (hi : i < s.nnode.toNat) (ht : (s.nodeAt i).tag = .internal) :
    s.nleaf.toNat ≤ i := by
  have hleaf := h.tag_eq_leaf_iff hi
  simpa [ht] using hleaf

/-- Both children of an allocated internal node lie before it (10_state.md R26). -/
theorem State.TreeOk.child_lt (h : s.TreeOk) (hi : i < s.nnode.toNat) (ht : (s.nodeAt i).tag = .internal) (d : Bool) :
    s.child i d < i := by
  have hint := h.internals i hi (h.nleaf_le_of_internal hi ht)
  cases d with
  | false => exact hint.left
  | true => exact hint.right

/-- Both links of a leaf are NIL (10_state.md R25). -/
theorem State.TreeOk.child_of_leaf (h : s.TreeOk) (hi : i < s.nleaf.toNat) (d : Bool) : s.child i d = 511 := by
  have hok := h.leaves i hi
  cases d with
  | false => exact congrArg BitVec.toNat hok.left
  | true => exact congrArg BitVec.toNat hok.right

theorem State.TreeOk.leads_le (h : s.TreeOk) (hi : i < s.nnode.toNat) (hl : s.Leads i ds l) : l ≤ i := by
  induction ds generalizing i with
  | nil => exact (State.leads_nil.mp hl).ge
  | cons d ds ih =>
    obtain ⟨ht, hl⟩ := hl
    have hlt := h.child_lt hi ht d
    exact (ih (hlt.trans hi) hl).trans hlt.le

/-- A path from node `i` meets only internal nodes on its way down, and the indices of those are `nleaf` to `i`. -/
theorem State.TreeOk.leads_length_le (h : s.TreeOk) (hi : i < s.nnode.toNat) (hl : s.Leads i ds l) :
    ds.length ≤ i + 1 - s.nleaf.toNat := by
  induction ds generalizing i with
  | nil => simp
  | cons d ds ih =>
    obtain ⟨ht, hl⟩ := hl
    have hle := h.nleaf_le_of_internal hi ht
    have hlt := h.child_lt hi ht d
    have := ih (hlt.trans hi) hl
    rw [List.length_cons]
    omega

/-- Every allocated node but the root and the queued ones is a child of an allocated internal node (40_tree_builder.md
R117). -/
theorem State.ForestOk.exists_parent (hf : s.ForestOk) (ht : s.TreeOk) (hq : s.pq = []) (hi : i < s.nnode.toNat)
    (hroot : i ≠ s.root.toNat) : ∃ j d, j < s.nnode.toNat ∧ (s.nodeAt j).tag = .internal ∧ s.child j d = i := by
  have hcount : s.parentCount i = 1 := by simpa [hq, hroot] using hf i hi
  obtain ⟨j, d, hj, hd⟩ : ∃ j d, j < s.nnode.toNat ∧ s.child j d = i := by
    by_contra hno
    have hzero : s.parentCount i = 0 := by
      simp only [State.parentCount, Nat.add_eq_zero_iff, List.countP_eq_zero, List.mem_range, beq_iff_eq]
      exact ⟨fun j hj e => hno ⟨j, false, hj, e⟩, fun j hj e => hno ⟨j, true, hj, e⟩⟩
    omega
  refine ⟨j, d, hj, ?_, hd⟩
  cases htag : (s.nodeAt j).tag with
  | internal => rfl
  | leaf =>
    have hnil := ht.child_of_leaf ((ht.tag_eq_leaf_iff hj).mp htag) d
    have := s.nnode.isLt
    omega

/-- A path leads from the root to every allocated node of a finished tree: it goes on from the node's parent, which
lies after the node. -/
theorem State.ForestOk.exists_leads (hf : s.ForestOk) (ht : s.TreeOk) (hfin : s.finished = true)
    (hi : i < s.nnode.toNat) : ∃ ds, s.Leads s.root.toNat ds i := by
  obtain ⟨-, -, hq, -⟩ := ht.finished hfin
  induction hn : s.nnode.toNat - i using Nat.strong_induction_on generalizing i with
  | _ n ih =>
    by_cases hroot : i = s.root.toNat
    · exact ⟨[], hroot.symm⟩
    · obtain ⟨j, d, hj, htag, rfl⟩ := hf.exists_parent ht hq hi hroot
      have hlt := ht.child_lt hj htag d
      obtain ⟨ds, hds⟩ := ih (s.nnode.toNat - j) (by omega) hj rfl
      exact ⟨ds ++ [d], State.leads_append.mpr ⟨j, hds, htag, rfl⟩⟩

/-- The leaves of a consistent tree hold distinct symbols. -/
theorem State.TreeOk.leaf_eq_of_sym_eq (h : s.TreeOk) (hk : k < s.nleaf.toNat) (hl : l < s.nleaf.toNat)
    (he : (s.nodeAt k).sym.toNat = (s.nodeAt l).sym.toNat) : k = l := by
  rcases lt_trichotomy k l with hlt | heq | hlt
  · exact absurd he (h.symbols l hl k hlt).ne
  · exact heq
  · exact absurd he (h.symbols k hk l hlt).ne'

/-- A path from an allocated node to a leaf of `l`'s symbol ends in `l`. -/
theorem State.TreeOk.leads_of_leadsToSym (h : s.TreeOk) (hi : i < s.nnode.toNat) (hl : l < s.nleaf.toNat)
    (hp : s.LeadsToSym i ds (s.nodeAt l).sym.toNat) : s.Leads i ds l := by
  obtain ⟨k, hk, hleaf, hsym⟩ := hp
  have hkn : k < s.nnode.toNat := (h.leads_le hi hk).trans_lt hi
  rwa [← h.leaf_eq_of_sym_eq ((h.tag_eq_leaf_iff hkn).mp hleaf) hl hsym]

/-- The root of a finished tree is allocated, and an internal node where there are two or more leaves. -/
theorem State.TreeOk.root_lt (h : s.TreeOk) (hf : s.finished = true) : s.root.toNat < s.nnode.toNat := by
  obtain ⟨-, -, -, hroot⟩ := h.finished hf
  omega

theorem State.TreeOk.root_internal (h : s.TreeOk) (hf : s.finished = true) (h2 : 2 ≤ s.nleaf.toNat) :
    (s.nodeAt s.root.toNat).tag = .internal := by
  obtain ⟨-, hsum, -, hroot⟩ := h.finished hf
  exact (h.internals s.root.toNat (h.root_lt hf) (by omega)).tag

end Sys2Proof.Machine
end

section
/-! SUPPORT. The code of a path, and what the walk of GEN_CODES writes (41_code_table_generator.md R140). -/

namespace Sys2Proof.Machine

variable {s t : State} {m m' : Memory Code} {n : Nat}

/-- The `bits` field of the code with these digits: digit `j` is bit `j` (10_state.md R31). -/
def digitBits (ds : List Bool) : BitVec 256 := (BitVec.ofBoolListLE ds).setWidth 256

/-- The code of a leaf at the end of a path with these digits (R140, R141). -/
def Code.ofDigits (ds : List Bool) : Code := ⟨true, BitVec.ofNat 8 ds.length, digitBits ds⟩

theorem getLsbD_digitBits (ds : List Bool) (j : Nat) :
    (digitBits ds).getLsbD j = (decide (j < 256) && ds.getD j false) := by
  rw [digitBits, BitVec.getLsbD_setWidth, BitVec.getLsbD_ofBoolListLE]

theorem Code.ofDigits_len {ds : List Bool} (h : ds.length < 256) : (Code.ofDigits ds).len.toNat = ds.length := by
  rw [Code.ofDigits, BitVec.toNat_ofNat]
  omega

/-- A code of at most 255 digits gives them back. -/
theorem Code.digits_ofDigits {ds : List Bool} (h : ds.length < 256) : (Code.ofDigits ds).digits = ds := by
  rw [Code.digits, Code.ofDigits_len h]
  refine List.ext_getElem (by simp) fun j _ hj => ?_
  have hj256 : j < 256 := by omega
  rw [List.getElem_map, List.getElem_range, Code.ofDigits, getLsbD_digitBits]
  simp [hj, hj256]

/-- No bit of a code at or above its length is 1 (10_state.md R31). -/
theorem Code.ofDigits_bits_of_ge {ds : List Bool} {j : Nat} (h : ds.length ≤ j) :
    (Code.ofDigits ds).bits.getLsbD j = false := by
  simp [Code.ofDigits, getLsbD_digitBits, h]

/-- The walk starts at the root with no bit set (R140). -/
theorem digitBits_nil : digitBits [] = 0 := rfl

/-- One digit more changes no digit but the one at its own position. -/
theorem getD_append_singleton (ds : List Bool) (d : Bool) (j : Nat) :
    (ds ++ [d]).getD j false = (ds.getD j false || (d && decide (j = ds.length))) := by
  rcases lt_trichotomy j ds.length with hlt | rfl | hgt
  · simp [List.getElem?_append_left hlt, hlt.ne]
  · simp
  · simp [List.getElem?_append_right hgt.le, hgt.ne', hgt.le, Nat.sub_ne_zero_of_lt hgt]

/-- The walk goes left with the same bits (R140). -/
theorem digitBits_append_false (ds : List Bool) : digitBits (ds ++ [false]) = digitBits ds := by
  refine BitVec.eq_of_getLsbD_eq fun j _ => ?_
  rw [getLsbD_digitBits, getLsbD_digitBits, getD_append_singleton, Bool.false_and, Bool.or_false]

/-- The walk goes right with bit `d` set, `d` being the depth (R140). -/
theorem digitBits_append_true (ds : List Bool) : digitBits (ds ++ [true]) = digitBits ds ||| 1#256 <<< ds.length := by
  refine BitVec.eq_of_getLsbD_eq fun j hj => ?_
  have hbit : (1#256 <<< ds.length).getLsbD j = decide (j = ds.length) := by
    rw [BitVec.getLsbD_shiftLeft, BitVec.getLsbD_one]
    by_cases h : j = ds.length
    · simp [h, h ▸ hj]
    · simp [h]
      omega
  rw [BitVec.getLsbD_or, hbit, getLsbD_digitBits, getLsbD_digitBits, getD_append_singleton]
  simp [hj]

/-- Everything that a walk which does not stop does: it records a leaf, or walks the two children one after the other. -/
theorem walk_cases {i : Idx} {d : Nat} {p : BitVec 256} (h : walk s (n + 1) i d p m = .ok m') :
    ((s.nodeAt i.toNat).tag = .leaf ∧
      m' = m.write Code.zero (s.nodeAt i.toNat).sym.toNat ⟨true, BitVec.ofNat 8 d, p⟩) ∨
    ((s.nodeAt i.toNat).tag = .internal ∧ ∃ u, walk s n (s.nodeAt i.toNat).left (d + 1) p m = .ok u ∧
      walk s n (s.nodeAt i.toNat).right (d + 1) (p ||| (1#256 <<< d)) u = .ok m') := by
  simp only [walk] at h
  split at h
  · cases h
  · split at h
    · rename_i hleaf
      cases h
      exact .inl ⟨hleaf, rfl⟩
    · rename_i hint
      split at h
      · cases h
      · rename_i u hu
        exact .inr ⟨hint, u, hu, h⟩

/-- `c` is what a walk with `n` stack entries left, come to node `i` by the digits `pre`, leaves at symbol `x`, where
`c₀` stood before: the code of a path to a leaf of `x`, or `c₀` where no path leads to one. -/
def State.WalkLeaves (s : State) (n i : Nat) (pre : List Bool) (x : Nat) (c₀ c : Code) : Prop :=
  (c = c₀ ∧ ∀ ds, ¬ s.LeadsToSym i ds x) ∨
    ∃ ds, s.LeadsToSym i ds x ∧ ds.length < n ∧ c = Code.ofDigits (pre ++ ds)

theorem State.walkLeaves_of_leaf {i x : Nat} {pre : List Bool} (hi : (s.nodeAt i).tag = .leaf)
    (hm : m.wf 256 Code.zero) :
    s.WalkLeaves (n + 1) i pre x (m.read Code.zero x)
      ((m.write Code.zero (s.nodeAt i).sym.toNat (Code.ofDigits pre)).read Code.zero x) := by
  by_cases hx : x = (s.nodeAt i).sym.toNat
  · refine .inr ⟨[], (State.leadsToSym_of_leaf hi).mpr ⟨rfl, hx.symm⟩, n.succ_pos, ?_⟩
    rw [hx, Memory.read_write_same hm.1, List.append_nil]
  · exact .inl ⟨Memory.read_write_other hx, fun ds h => hx ((State.leadsToSym_of_leaf hi).mp h).2.symm⟩

/-- What the right child's walk leaves stands; elsewhere what the left child's walk left. -/
theorem State.walkLeaves_of_internal {i x : Nat} {pre : List Bool} {c₀ c₁ c₂ : Code}
    (hi : (s.nodeAt i).tag = .internal) (hl : s.WalkLeaves n (s.child i false) (pre ++ [false]) x c₀ c₁)
    (hr : s.WalkLeaves n (s.child i true) (pre ++ [true]) x c₁ c₂) : s.WalkLeaves (n + 1) i pre x c₀ c₂ := by
  have through {d : Bool} {ds : List Bool} {c : Code} (hds : s.LeadsToSym (s.child i d) ds x) (hn : ds.length < n)
      (hc : c = Code.ofDigits (pre ++ [d] ++ ds)) : s.WalkLeaves (n + 1) i pre x c₀ c :=
    .inr ⟨d :: ds, (State.leadsToSym_of_internal hi).mpr ⟨d, ds, rfl, hds⟩, Nat.succ_lt_succ hn, by simp [hc]⟩
  obtain ⟨rfl, hnor⟩ | ⟨ds, hds, hn, hc⟩ := hr
  · obtain ⟨rfl, hnol⟩ | ⟨ds, hds, hn, hc⟩ := hl
    · refine .inl ⟨rfl, fun ds h => ?_⟩
      obtain ⟨d, es, -, hes⟩ := (State.leadsToSym_of_internal hi).mp h
      cases d with
      | false => exact hnol es hes
      | true => exact hnor es hes
    · exact through hds hn hc
  · exact through hds hn hc

/-- The walk of a node records the path to each leaf below it, and nothing else (R140, R141). -/
theorem walk_leaves {i : Idx} {d : Nat} {p : BitVec 256} {pre : List Bool} (hm : m.wf 256 Code.zero)
    (hd : d = pre.length) (hp : p = digitBits pre) (h : walk s n i d p m = .ok m') (x : Nat) :
    s.WalkLeaves n i.toNat pre x (m.read Code.zero x) (m'.read Code.zero x) := by
  induction n generalizing i d p pre m m' with
  | zero => simp [walk] at h
  | succ n ih =>
    subst hd hp
    obtain ⟨hleaf, rfl⟩ | ⟨hint, u, hl, hr⟩ := walk_cases h
    · exact State.walkLeaves_of_leaf hleaf hm
    · have left := ih (pre := pre ++ [false]) hm (by simp) (digitBits_append_false pre).symm hl
      have right := ih (pre := pre ++ [true]) (walk_wf hm hl) (by simp) (digitBits_append_true pre).symm hr
      exact State.walkLeaves_of_internal hint left right

/-- GEN_CODES on a finished tree writes the code table and the phase (R140). -/
theorem exec_genCodes_of_finished (hf : s.finished = true) (h : exec .genCodes s = .next t) :
    ∃ m, s.codeTable = .ok m ∧ t = { s with code := m, phase := .coded, engine := .idle, done := true } := by
  obtain ⟨hno, -⟩ | ⟨-, ⟨m, hm, hbody⟩ | ⟨f, -, hbody⟩⟩ := genCodesBody_cases s
  · simp [hf] at hno
  · rw [exec_eq, bodyOf, hbody] at h
    cases h
    exact ⟨m, hm, rfl⟩
  · rw [exec_eq, bodyOf, hbody] at h
    cases h

/-- The entry of a symbol after GEN_CODES is the code of a path from the root to a leaf of it, or invalid where there is
none (R141, R144). -/
theorem codeAt_of_genCodes (hf : s.finished = true) (h : exec .genCodes s = .next t) (x : Nat) :
    s.WalkLeaves Config.walkStack s.root.toNat [] x Code.zero (t.codeAt x) := by
  obtain ⟨m, hm, rfl⟩ := exec_genCodes_of_finished hf h
  exact walk_leaves (pre := []) Memory.wf_nil rfl digitBits_nil.symm hm x

/-- A symbol that a path from the root leads to has the code of such a path. -/
theorem exists_code_of_leadsToSym (hf : s.finished = true) (h : exec .genCodes s = .next t) {x : Nat}
    {ds : List Bool} (hx : s.LeadsToSym s.root.toNat ds x) :
    ∃ es, s.LeadsToSym s.root.toNat es x ∧ es.length < 256 ∧ t.codeAt x = Code.ofDigits es := by
  obtain ⟨-, hno⟩ | hcode := codeAt_of_genCodes hf h x
  · exact absurd hx (hno ds)
  · exact hcode

/-- A valid code is that of a path from the root to a leaf of the symbol. -/
theorem exists_code_of_valid (hf : s.finished = true) (h : exec .genCodes s = .next t) {x : Nat}
    (hx : (t.codeAt x).valid = true) :
    ∃ es, s.LeadsToSym s.root.toNat es x ∧ es.length < 256 ∧ t.codeAt x = Code.ofDigits es := by
  obtain ⟨hzero, -⟩ | hcode := codeAt_of_genCodes hf h x
  · simp [hzero, Code.zero] at hx
  · exact hcode

end Sys2Proof.Machine
end

section
/-! CLAIMS. The statements of the code table (41_code_table_generator.md R141, R142, R145). -/

namespace Sys2Proof.Machine

/-- Settles O43: a path leads from the root to every leaf, the walk records one, and in a tree whose leaves hold distinct
symbols it ends in that leaf. -/
theorem codesAreRootToLeafPaths : Obligations.CodesAreRootToLeafPaths := by
  intro s t htree hforest hfin h l hl
  obtain ⟨-, hsum, -, hlast⟩ := htree.finished hfin
  have hroot := htree.root_lt hfin
  have hln := hl.trans_le htree.leafFirst
  obtain ⟨ds, hds⟩ := hforest.exists_leads htree hfin hln
  obtain ⟨es, hes, hlt, hcode⟩ := exists_code_of_leadsToSym hfin h ⟨l, hds, (htree.tag_eq_leaf_iff hln).mpr hl, rfl⟩
  have hleads : s.Leads s.root.toNat es l := htree.leads_of_leadsToSym hroot hl hes
  have hlen := htree.leads_length_le hroot hleads
  obtain ⟨hnode, hroot_eq⟩ : t.node = s.node ∧ t.root = s.root := by
    obtain ⟨m, -, rfl⟩ := exec_genCodes_of_finished hfin h
    exact ⟨rfl, rfl⟩
  rw [hcode, Code.digits_ofDigits hlt, Code.ofDigits_len hlt, State.leads_congr hnode, hroot_eq]
  exact ⟨rfl, hleads, by omega, fun k hk => Code.ofDigits_bits_of_ge hk⟩

/-- Settles O46: valid codes are paths from the root, an internal node, to leaves of their symbols. -/
theorem codesArePrefixFree : Obligations.CodesArePrefixFree := by
  intro s t htree hfin h2 h x y _ _ hx hy
  obtain ⟨ds, hds, hdlt, hxcode⟩ := exists_code_of_valid hfin h hx
  obtain ⟨es, hes, helt, hycode⟩ := exists_code_of_valid hfin h hy
  rw [hxcode, hycode, Code.ofDigits_len hdlt, Code.digits_ofDigits hdlt, Code.digits_ofDigits helt]
  obtain ⟨d, ds, rfl, -⟩ := (State.leadsToSym_of_internal (htree.root_internal hfin h2)).mp hds
  exact ⟨by simp, hds.not_isPrefix hes⟩

end Sys2Proof.Machine
end

section
/-! CLAIMS. The statement of CLEAR (42_control.md R161). -/

namespace Sys2Proof.Machine

/-- CLEAR answers in every state, for its rule neither raises an error nor stops. -/
theorem exec_clear (s : State) : exec .clear s = .next { s.cleared with engine := .idle, done := true } :=
  exec_eq_next.mpr (.inl ⟨s.cleared, rfl, rfl⟩)

/-- What CLEAR leaves is the reset state but for `ie`, `err`, `err_code` and `done`, and for the clearing period that
only reset begins (R161). -/
theorem State.block_clear_completed (s : State) :
    State.block { s.cleared with engine := .idle, done := true } =
      { State.reset.block with engine := .idle, done := true, ie := s.ie, err := s.err, errCode := s.errCode } := rfl

/-- Settles O32: CLEAR completes with the cleared tables, which read 0 everywhere, and writes no other field. -/
theorem clearLeavesResetValues : Obligations.ClearLeavesResetValues := by
  refine ⟨decode_encode .clear, fun s => ⟨_, exec_clear s, ?freq, ?node, ?code, ?_⟩⟩
  case freq => exact State.freqAt_nil s.cleared_freq
  case node => exact State.nodeAt_nil s.cleared_node
  case code => exact State.codeAt_nil s.cleared_code
  exact ⟨rfl, rfl, rfl, rfl, rfl, rfl, rfl, rfl, rfl, rfl, s.block_clear_completed⟩

end Sys2Proof.Machine
end

section
/-! SUPPORT. The writes to CMD that start no command (60_exceptions.md R171). -/

namespace Sys2Proof.Machine

variable {s : State} {v : Word}

theorem State.issue_of_busy (hb : s.busy = true) : s.issue v = s.withFirstError .busy := by
  rw [State.issue, if_pos hb, State.setErr_eq]

theorem State.issue_of_decode_error (hb : s.busy = false) (h : ∃ e, decode v = .error e) :
    s.issue v = s.withFirstError .illegalCmd := by
  obtain ⟨e, he⟩ := h
  simp [State.issue, hb, he, State.setErr_eq]

end Sys2Proof.Machine
end

section
/-! CLAIMS. The statement of the command register (60_exceptions.md R171, 10_state.md R42). -/

namespace Sys2Proof.Machine

/-- Settles O6, by the three outcomes of an issue; the words of 7 or more are the illegal ones, and CMD is never
drawn. -/
theorem cmdWriteAcceptsOrRecordsError : Obligations.CmdWriteAcceptsOrRecordsError := by
  intro s v
  have hwrite : s.WritesTo 0x00C v (s.issue v) := State.writesTo_writeRegion (r := .cmd) v rfl rfl
  refine ⟨fun hb => ?busy, fun hb hill => ?illegal, fun i hb hv => ?accepted, ?read⟩
  case busy => exact State.issue_of_busy hb ▸ hwrite
  case illegal =>
    have hdec : ∃ e, decode v = .error e := exists_decode_eq_error (by omega)
    exact State.issue_of_decode_error hb hdec ▸ hwrite
  case accepted =>
    subst hv
    rw [State.issue_encode hb] at hwrite
    exact hwrite
  case read => exact State.readsAs_of_undrawn (r := .cmd) (fun _ => rfl) rfl rfl

end Sys2Proof.Machine
end

section
/-! SUPPORT. The tree state of the block (nodes, codes, counts, queue, root and phase), and what a step can do to it. -/

namespace Sys2Proof.Machine

variable {s t u : State} {i : Instr}

/-- `t` holds the tree state of `s`. -/
structure SameTree (s t : State) : Prop where
  node : t.node = s.node
  code : t.code = s.code
  nleaf : t.nleaf = s.nleaf
  nnode : t.nnode = s.nnode
  pq : t.pq = s.pq
  root : t.root = s.root
  phase : t.phase = s.phase

theorem SameTree.refl (s : State) : SameTree s s := ⟨rfl, rfl, rfl, rfl, rfl, rfl, rfl⟩

theorem SameTree.trans {u : State} (h : SameTree s t) (h' : SameTree t u) : SameTree s u :=
  ⟨h'.node.trans h.node, h'.code.trans h.code, h'.nleaf.trans h.nleaf, h'.nnode.trans h.nnode, h'.pq.trans h.pq,
    h'.root.trans h.root, h'.phase.trans h.phase⟩

/-- The tree state does not hold the schedule or the port's answer. -/
theorem SameTree.withSched (s : State) (es : List Event) : SameTree s { s with sched := es } :=
  ⟨rfl, rfl, rfl, rfl, rfl, rfl, rfl⟩

theorem SameTree.withResp (s : State) (r : Response) : SameTree s { s with resp := r } :=
  ⟨rfl, rfl, rfl, rfl, rfl, rfl, rfl⟩

theorem State.issue_sameTree (s : State) (v : Word) : SameTree s (s.issue v) := by
  rcases State.issue_cases s v with ⟨_, h⟩ | ⟨_, _, h⟩ | ⟨_, i, _, h⟩ <;> rw [h] <;>
    exact ⟨rfl, rfl, rfl, rfl, rfl, rfl, rfl⟩

theorem State.hostRead_sameTree (s : State) (a : Addr) (n : Nat) : SameTree s (s.hostRead a n) := by
  obtain ⟨r, k, h, -⟩ := State.hostRead_eq s a n
  rw [h]
  exact ⟨rfl, rfl, rfl, rfl, rfl, rfl, rfl⟩

/-- A host write reaches the flags, the frequencies, `ie` and the engine, and no table of the tree (20_memory.md R65,
R66, R77). -/
theorem State.hostWrite_sameTree (s : State) (a : Addr) (n : Nat) (v : Word) : SameTree s (s.hostWrite a n v) := by
  rcases State.hostWrite_cases s a n v with
    ⟨_, h⟩ | ⟨_, t, h, rfl | ⟨_, rfl⟩ | ⟨_, rfl⟩ | ⟨_, rfl⟩ | ⟨_, rfl⟩ | ⟨x, _, _, _, rfl⟩⟩ <;> rw [h]
  · exact SameTree.withResp s _
  · exact SameTree.withResp _ _
  · exact ⟨rfl, rfl, rfl, rfl, rfl, rfl, rfl⟩
  · exact (State.issue_sameTree s v).trans (SameTree.withResp _ _)
  · rw [State.writeStatus_eq]
    exact ⟨rfl, rfl, rfl, rfl, rfl, rfl, rfl⟩
  · exact ⟨rfl, rfl, rfl, rfl, rfl, rfl, rfl⟩
  · exact ⟨rfl, rfl, rfl, rfl, rfl, rfl, rfl⟩

/-- Everything that a step can do to the tree state: keep it, clear it (reset, and the end of the clearing period), or
complete a command. -/
theorem step_tree_cases (h : step s = .next t) :
    SameTree s t ∨
    (((∃ es, s.sched = .reset :: es) ∨ (s.EngineMoves ∧ s.engine = .clearing)) ∧ SameTree State.reset t) ∨
    (s.EngineMoves ∧ ∃ i es, s.engine = .running i ∧ exec i { s with sched := es } = .next t) := by
  rcases step_cases h with
    ⟨a, n, es, _, rfl⟩ | ⟨a, n, v, es, _, rfl⟩ | ⟨es, hs, rfl⟩ | ⟨hm, es, _, ⟨_, rfl⟩ | ⟨he, rfl⟩ | ⟨i, he, hx⟩⟩
  · exact .inl ((SameTree.withSched s es).trans (State.hostRead_sameTree _ a n))
  · exact .inl ((SameTree.withSched s es).trans (State.hostWrite_sameTree _ a n v))
  · exact .inr (.inl ⟨.inl ⟨es, hs⟩, rfl, rfl, rfl, rfl, rfl, rfl, rfl⟩)
  · exact .inl (SameTree.withSched s es)
  · exact .inr (.inl ⟨.inr ⟨hm, he⟩, rfl, rfl, rfl, rfl, rfl, rfl, rfl⟩)
  · exact .inr (.inr ⟨hm, i, es, he, hx⟩)

/-- What holds of the state that a rule leaves, and reads the tree state only, holds after the completion. -/
theorem CmdEnd.All.of_exec {P : State → Prop} (congr : ∀ {u t : State}, SameTree u t → P u → P t)
    (hP : (bodyOf i s).All P) (h : exec i s = .next t) : P t := by
  rcases exec_eq_next.mp h with ⟨u, hu, rfl⟩ | ⟨e, u, hu, rfl⟩ <;> rw [hu] at hP
  · exact congr (u := u) ⟨rfl, rfl, rfl, rfl, rfl, rfl, rfl⟩ hP
  · exact congr (u := u) ⟨rfl, rfl, rfl, rfl, rfl, rfl, rfl⟩ hP

end Sys2Proof.Machine
end

section
/-! SUPPORT. A MERGE that takes effect (40_tree_builder.md R113). -/

namespace Sys2Proof.Machine

variable {s t : State} {a b k : NodeId} {rest : List NodeId}

/-- MERGE in `s` joins `a` and `b`, the two least nodes of the queue, into the new node `k` and leaves `rest` queued. -/
structure State.CanMerge (s : State) (a b : NodeId) (rest : List NodeId) (k : NodeId) : Prop where
  phase : s.phase = .queued
  pop : s.popTwo = some (a, b, rest)
  fits : (s.weightAt a).toNat + (s.weightAt b).toNat ≤ 0xFFFFFFFF
  new : k.val = s.nnode.toNat

theorem State.CanMerge.mergeBody_eq (h : s.CanMerge a b rest k) : mergeBody s = .ok (s.merged a b rest k) :=
  mergeBody_of_fit h.phase h.pop h.fits h.new

theorem mergeBody_eq_ok :
    mergeBody s = .ok t ↔ ∃ a b rest k, s.CanMerge a b rest k ∧ t = s.merged a b rest k := by
  constructor
  · intro h
    obtain ⟨_, hb⟩ | ⟨a, b, rest, hp, h2, ⟨_, hb⟩ | ⟨hfit, ⟨k, hk, hb⟩ | ⟨_, hb⟩⟩⟩ := mergeBody_cases s <;>
      rw [hb] at h <;> cases h
    exact ⟨a, b, rest, k, ⟨hp, h2, hfit, hk⟩, rfl⟩
  · rintro ⟨a, b, rest, k, h, rfl⟩
    exact h.mergeBody_eq

/-- MERGE that raises an error leaves the state as it is (60_exceptions.md R173). -/
theorem mergeBody_raised {e : ErrCode} (h : mergeBody s = .raised e t) : t = s := by
  obtain ⟨_, hb⟩ | ⟨a, b, rest, hp, h2, ⟨_, hb⟩ | ⟨_, ⟨k, _, hb⟩ | ⟨_, hb⟩⟩⟩ := mergeBody_cases s <;> rw [hb] at h <;>
    cases h <;> rfl

theorem State.CanMerge.isLeast_left (h : s.CanMerge a b rest k) : s.IsLeast s.pq a :=
  State.isLeast_of_argminKey (State.popTwo_eq_some.mp h.pop).1

theorem State.CanMerge.isLeast_right (h : s.CanMerge a b rest k) : s.IsLeast (s.pq.erase a) b :=
  State.isLeast_of_argminKey (State.popTwo_eq_some.mp h.pop).2.1

theorem State.CanMerge.rest_eq (h : s.CanMerge a b rest k) : rest = (s.pq.erase a).erase b :=
  (State.popTwo_eq_some.mp h.pop).2.2

theorem State.CanMerge.two_le (h : s.CanMerge a b rest k) : 2 ≤ s.pq.length := State.two_le_of_popTwo h.pop

/-- The queue is `a`, `b` and the rest. -/
theorem State.CanMerge.perm (h : s.CanMerge a b rest k) : s.pq.Perm (a :: b :: rest) := perm_of_popTwo h.pop

theorem State.CanMerge.left_mem (h : s.CanMerge a b rest k) : a ∈ s.pq := h.isLeast_left.1

theorem State.CanMerge.right_mem (h : s.CanMerge a b rest k) : b ∈ s.pq := List.mem_of_mem_erase h.isLeast_right.1

@[simp] theorem State.merged_nleaf : (s.merged a b rest k).nleaf = s.nleaf := rfl
@[simp] theorem State.merged_nnode : (s.merged a b rest k).nnode = s.nnode + 1 := rfl
@[simp] theorem State.merged_root : (s.merged a b rest k).root = s.root := rfl
@[simp] theorem State.merged_code : (s.merged a b rest k).code = s.code := rfl
@[simp] theorem State.merged_phase : (s.merged a b rest k).phase = s.phase := rfl
@[simp] theorem State.merged_pq : (s.merged a b rest k).pq = insertId k rest := rfl

/-- One more node is allocated. -/
theorem State.CanMerge.nnode_toNat (h : s.CanMerge a b rest k) :
    (s.merged a b rest k).nnode.toNat = s.nnode.toNat + 1 := by
  have hk := k.isLt
  have hnew := h.new
  exact BitVec.toNat_add_of_lt (show s.nnode.toNat + 1 < 2 ^ 9 by omega)

/-- The state that FINISH of the lone queued node `r` leaves (R114). -/
def State.rooted (s : State) (r : NodeId) : State := { s with root := idxOf r, pq := [], phase := .built }

/-- The state that GEN_CODES leaves with the table `m` (41_code_table_generator.md R140). -/
def State.withCodes (s : State) (m : Memory Code) : State := { s with code := m, phase := .coded }

end Sys2Proof.Machine
end

section
/-! SUPPORT. An invariant of the tree state from its cases: the cleared tables, the queued leaves, a MERGE, a FINISH and
a new code table. BUILD is these in turn, so no invariant needs a case for it (40_tree_builder.md R115). -/

namespace Sys2Proof.Machine

variable {s t : State} {i : Instr} {A P : State → Prop}

/-- `P` reads the tree state only, the cleared tables and the queued leaves meet it, and in states that meet `A` each
other change of the tree keeps it. -/
structure TreeInvariant (A P : State → Prop) : Prop where
  congr : ∀ {s t : State}, SameTree s t → P s → P t
  cleared : P State.reset
  queueLeaves : ∀ s : State, s.present ≠ [] → P (s.queueLeaves s.present)
  merged : ∀ {s : State} {a b rest k}, A s → P s → s.CanMerge a b rest k → P (s.merged a b rest k)
  rooted : ∀ {s : State} {r}, A s → P s → s.phase = .queued → s.pq = [r] → P (s.rooted r)
  withCodes : ∀ {s : State} {m}, A s → P s → s.finished = true → s.codeTable = .ok m → P (s.withCodes m)

/-- An invariant that needs another one is an invariant together with it. -/
theorem TreeInvariant.and (hA : TreeInvariant (fun _ => True) A) (hP : TreeInvariant A P) :
    TreeInvariant (fun _ => True) fun s => A s ∧ P s where
  congr h hs := ⟨hA.congr h hs.1, hP.congr h hs.2⟩
  cleared := ⟨hA.cleared, hP.cleared⟩
  queueLeaves s hne := ⟨hA.queueLeaves s hne, hP.queueLeaves s hne⟩
  merged _ hs hm := ⟨hA.merged trivial hs.1 hm, hP.merged hs.1 hs.2 hm⟩
  rooted _ hs hp hq := ⟨hA.rooted trivial hs.1 hp hq, hP.rooted hs.1 hs.2 hp hq⟩
  withCodes _ hs hf hc := ⟨hA.withCodes trivial hs.1 hf hc, hP.withCodes hs.1 hs.2 hf hc⟩

section rules
variable (hP : TreeInvariant (fun _ => True) P)
include hP

theorem TreeInvariant.pqInitBody (hs : P s) : (pqInitBody s).All P := by
  obtain ⟨_, h⟩ | ⟨hne, h⟩ := pqInitBody_cases s <;> rw [h]
  · exact hs
  · exact hP.queueLeaves s hne

theorem TreeInvariant.mergeBody (hs : P s) : (mergeBody s).All P := by
  cases h : Sys2Proof.Machine.mergeBody s with
  | ok t =>
    obtain ⟨a, b, rest, k, hm, rfl⟩ := mergeBody_eq_ok.mp h
    exact hP.merged trivial hs hm
  | raised e t => exact mergeBody_raised h ▸ hs
  | stuck f => trivial

theorem TreeInvariant.finishBody (hs : P s) : (finishBody s).All P := by
  obtain ⟨_, h⟩ | ⟨r, hp, hq, h⟩ := finishBody_cases s <;> rw [h]
  · exact hs
  · exact hP.rooted trivial hs hp hq

theorem TreeInvariant.genCodesBody (hs : P s) : (genCodesBody s).All P := by
  obtain ⟨_, h⟩ | ⟨hf, ⟨m, hm, h⟩ | ⟨f, _, h⟩⟩ := genCodesBody_cases s <;> rw [h]
  · exact hs
  · exact hP.withCodes trivial hs hf hm
  · trivial

/-- BUILD of a table with a present symbol establishes the invariant, whatever the tree was before. -/
theorem TreeInvariant.buildBody_of_present (hne : s.present ≠ []) : (buildBody s).All P := by
  obtain ⟨h, _⟩ | ⟨_, h⟩ := pqInitBody_cases s
  · exact absurd h hne
  · rw [buildBody, h]
    exact (mergeLoop_all (fun _ hu => hP.mergeBody hu) _ (hP.queueLeaves s hne)).andThen (fun _ h => h)
      fun _ hu => hP.finishBody hu

theorem TreeInvariant.bodyOf (i : Instr) (hs : P s) : (bodyOf i s).All P := by
  cases i with
  | nop => exact hs
  | clear => exact hP.congr (s := State.reset) ⟨rfl, rfl, rfl, rfl, rfl, rfl, rfl⟩ hP.cleared
  | pqInit => exact hP.pqInitBody hs
  | merge => exact hP.mergeBody hs
  | finish => exact hP.finishBody hs
  | build =>
    exact buildBody_all (fun _ hu => hP.pqInitBody hu) (fun _ hu => hP.mergeBody hu) (fun _ hu => hP.finishBody hu) hs
  | genCodes => exact hP.genCodesBody hs

/-- Every step keeps the invariant. -/
theorem TreeInvariant.step (hs : P s) (h : step s = .next t) : P t := by
  obtain hst | ⟨_, hst⟩ | ⟨_, i, es, _, hx⟩ := step_tree_cases h
  · exact hP.congr hst hs
  · exact hP.congr hst hP.cleared
  · refine CmdEnd.All.of_exec hP.congr (hP.bodyOf i ?_) hx
    exact hP.congr (SameTree.withSched s es) hs

end rules

end Sys2Proof.Machine
end

section
/-! SUPPORT. The arrays that the commands write, and the queue, are canonical after every step (log entries 8 and 9). -/

namespace Sys2Proof.Machine

variable {s t : State} {i : Instr}

/-- The arena, the code table and the queue are in canonical form: `TablesOk` but for the frequencies. -/
structure State.ArraysOk (s : State) : Prop where
  node : s.node.wf 511 Node.zero
  code : s.code.wf 256 Code.zero
  pq : s.pq.Pairwise (· < ·)

theorem State.tablesOk_iff : s.TablesOk ↔ s.freq.wf 256 0 ∧ s.ArraysOk :=
  ⟨fun h => ⟨h.freq, h.node, h.code, h.pq⟩, fun h => ⟨h.1, h.2.node, h.2.code, h.2.pq⟩⟩

theorem State.TablesOk.arrays (h : s.TablesOk) : s.ArraysOk := (State.tablesOk_iff.mp h).2

theorem arraysOk_invariant : TreeInvariant (fun _ => True) State.ArraysOk where
  congr h hs := ⟨h.node ▸ hs.node, h.code ▸ hs.code, h.pq ▸ hs.pq⟩
  cleared := ⟨Memory.wf_nil, Memory.wf_nil, .nil⟩
  queueLeaves s _ :=
    have hlen : s.present.length ≤ 511 := State.length_present_le.trans (by decide)
    ⟨State.leafArena_wf hlen, Memory.wf_nil, pairwise_firstIds hlen⟩
  merged {_ _ _ _ k} _ hs hm :=
    ⟨Memory.wf_write hs.node k.isLt, hs.code, pairwise_insertId (pairwise_of_popTwo hs.pq hm.pop)⟩
  rooted _ hs _ _ := ⟨hs.node, hs.code, .nil⟩
  withCodes _ hs _ hm := ⟨hs.node, walk_wf Memory.wf_nil hm, hs.pq⟩

/-- CLEAR empties the frequencies, and no other command writes them (40_tree_builder.md R110, 42_control.md R161). -/
theorem exec_freq (h : exec i s = .next t) : t.freq = s.freq ∨ (i = .clear ∧ t.freq = []) := by
  by_cases hi : i = .clear
  · subst hi
    rw [exec_clear] at h
    cases h
    exact .inr ⟨rfl, rfl⟩
  · have hk := bodyOf_keeps i s
    obtain ⟨u, hu, rfl⟩ | ⟨e, u, hu, rfl⟩ := exec_eq_next.mp h <;> rw [hu] at hk
    · exact .inl (hk.1 hi)
    · exact .inl (hk.1 hi)

theorem State.issue_freq (s : State) (v : Word) : (s.issue v).freq = s.freq := by
  rcases State.issue_cases s v with ⟨_, h⟩ | ⟨_, _, h⟩ | ⟨_, i, _, h⟩ <;> rw [h] <;> rfl

/-- Everything that a step can do to the frequencies: keep them, set the word of an idle FREQ write, or clear them. -/
theorem step_freq_cases (h : step s = .next t) :
    t.freq = s.freq ∨
    (∃ x v es, x < 256 ∧ s.busy = false ∧ s.sched = .write (BitVec.ofNat 15 (0x400 + 4 * x)) 4 v :: es ∧
      t.freq = (s.setFreq x v).freq) ∨
    (((∃ es, s.sched = .reset :: es) ∨ (s.EngineMoves ∧ (s.engine = .running .clear ∨ s.engine = .clearing))) ∧
      t.freq = []) := by
  rcases step_cases h with
    ⟨a, n, es, _, rfl⟩ | ⟨a, n, v, es, hs, rfl⟩ | ⟨es, hs, rfl⟩ | ⟨hm, es, _, ⟨_, rfl⟩ | ⟨he, rfl⟩ | ⟨i, he, hx⟩⟩
  · obtain ⟨r, k, hr, -⟩ := State.hostRead_eq { s with sched := es } a n
    exact .inl (by rw [hr])
  · rcases State.hostWrite_cases { s with sched := es } a n v with
      ⟨_, hw⟩ | ⟨rfl, t, hw, rfl | ⟨_, rfl⟩ | ⟨_, rfl⟩ | ⟨_, rfl⟩ | ⟨_, rfl⟩ | ⟨x, hx, rfl, hb, rfl⟩⟩ <;> rw [hw]
    · exact .inl rfl
    · exact .inl rfl
    · exact .inl rfl
    · exact .inl (State.issue_freq _ v)
    · exact .inl (by rw [State.writeStatus_eq])
    · exact .inl rfl
    · exact .inr (.inl ⟨x, v, es, hx, hb, hs, rfl⟩)
  · exact .inr (.inr ⟨.inl ⟨es, hs⟩, rfl⟩)
  · exact .inl rfl
  · exact .inr (.inr ⟨.inr ⟨hm, .inr he⟩, rfl⟩)
  · obtain hf | ⟨rfl, hf⟩ := exec_freq hx
    · exact .inl hf
    · exact .inr (.inr ⟨.inr ⟨hm, .inl he⟩, hf⟩)

end Sys2Proof.Machine
end

section
/-! CLAIMS. The canonical form, and what changes the frequencies and the tree (10_state.md R23, R24, R29, R31). -/

namespace Sys2Proof.Machine

/-- Settles O49: the frequencies by the changes a step can make to them, the rest as an invariant of the tree state. -/
theorem stepKeepsTablesCanonical : Obligations.StepKeepsTablesCanonical := by
  intro s t hs h
  obtain ⟨hfreq, harrays⟩ := State.tablesOk_iff.mp hs
  refine State.tablesOk_iff.mpr ⟨?_, arraysOk_invariant.step harrays h⟩
  obtain hf | ⟨x, v, es, hx, _, _, hf⟩ | ⟨_, hf⟩ := step_freq_cases h <;> rw [hf]
  · exact hfreq
  · exact Memory.wf_write hfreq hx
  · exact Memory.wf_nil

/-- Settles O22, by the changes a step can make to the frequencies. -/
theorem freqChangesOnlyByHostClearOrReset : Obligations.FreqChangesOnlyByHostClearOrReset := by
  intro s t x hs h hne
  obtain hf | ⟨y, v, es, hy, hb, hsched, hf⟩ | ⟨hcause, hf⟩ := step_freq_cases h
  · exact absurd (congrFun (State.freqAt_congr hf) x) hne
  · have hread := (congrFun (State.freqAt_congr hf) x).trans (State.setFreq_freqAt hs.freq y x v)
    by_cases hxy : x = y
    · subst hxy
      exact .inl ⟨v, es, hy, hb, hsched, hread.trans (if_pos rfl)⟩
    · exact absurd (hread.trans (if_neg hxy)) hne
  · have hzero := State.freqAt_nil hf x
    obtain hreset | ⟨hm, he⟩ := hcause
    · exact .inr (.inr ⟨hreset, hzero⟩)
    · exact .inr (.inl ⟨hm, he, hzero⟩)

/-- Settles O23: a step keeps the tree state but for the reset and a busy engine's step. -/
theorem hostAccessesNeverChangeTheTree : Obligations.HostAccessesNeverChangeTheTree := by
  intro s t h hreset hidle
  obtain ⟨hnode, hcode, hnleaf, hnnode, hpq, hroot, hphase⟩ | ⟨⟨es, hs⟩ | ⟨hm, he⟩, _⟩ | ⟨hm, i, es, he, _⟩ :=
    step_tree_cases h
  · exact ⟨hnode, hcode, hnleaf, hnnode, hpq, hroot, hphase⟩
  · exact absurd hs (hreset es)
  · exact absurd ⟨hm, State.busy_eq_true_iff.mpr (by simp [he])⟩ hidle
  · exact absurd ⟨hm, State.busy_eq_true_iff.mpr (by simp [he])⟩ hidle

end Sys2Proof.Machine
end

section
/-! SUPPORT. The arena and the queue after a MERGE that takes effect in a consistent state, and after PQ_INIT
(40_tree_builder.md R112, R113). -/

namespace Sys2Proof.Machine

variable {s t : State} {a b k : NodeId} {rest : List NodeId} {i : Nat}

/-- An allocated internal node reads only the nodes up to its own index. -/
theorem State.InternalOk.congr (h : s.InternalOk i) (hn : ∀ j ≤ i, t.nodeAt j = s.nodeAt j) : t.InternalOk i := by
  have hi := hn i le_rfl
  constructor <;> rw [hi]
  · exact h.valid
  · exact h.tag
  · exact h.sym
  · exact h.left
  · exact h.right
  · rw [hn _ h.left.le, hn _ h.right.le]
    exact h.weight

theorem State.CanMerge.ne (h : s.CanMerge a b rest k) (hs : s.ArraysOk) : a ≠ b :=
  ne_of_isLeast_erase hs.pq h.isLeast_right

theorem State.CanMerge.mem_pq (h : s.CanMerge a b rest k) (hs : s.ArraysOk) (i : NodeId) :
    i ∈ (s.merged a b rest k).pq ↔ (i ∈ s.pq ∧ i ≠ a ∧ i ≠ b) ∨ i = k := by
  rw [h.rest_eq]
  exact State.mem_merged_pq hs.pq i

/-- The new node is the one node whose entry changes. -/
theorem State.CanMerge.nodeAt_new (h : s.CanMerge a b rest k) (hs : s.ArraysOk) :
    (s.merged a b rest k).nodeAt s.nnode.toNat = parentNode (s.weightAt a + s.weightAt b) a b := by
  rw [State.merged_nodeAt hs.node, if_pos h.new.symm]

theorem State.CanMerge.nodeAt_old (h : s.CanMerge a b rest k) (hs : s.ArraysOk) (hi : i ≠ s.nnode.toNat) :
    (s.merged a b rest k).nodeAt i = s.nodeAt i := by
  rw [State.merged_nodeAt hs.node, if_neg (h.new ▸ hi)]

/-- A child of the new node is an allocated node before it. -/
theorem State.CanMerge.left_lt (h : s.CanMerge a b rest k) (ht : s.TreeOk) : a.val < s.nnode.toNat :=
  ht.members a h.left_mem

theorem State.CanMerge.right_lt (h : s.CanMerge a b rest k) (ht : s.TreeOk) : b.val < s.nnode.toNat :=
  ht.members b h.right_mem

theorem State.CanMerge.new_not_mem (h : s.CanMerge a b rest k) (ht : s.TreeOk) : k ∉ s.pq := by
  intro hk
  have := ht.members k hk
  have := h.new
  omega

theorem State.CanMerge.length_pq (h : s.CanMerge a b rest k) (ht : s.TreeOk) :
    (s.merged a b rest k).pq.length + 1 = s.pq.length :=
  State.merged_pq_length h.pop (h.new_not_mem ht)

/-- MERGE leaves the tree unfinished. -/
theorem State.CanMerge.not_finished (h : s.CanMerge a b rest k) : (s.merged a b rest k).finished = false := by
  simp [State.finished, h.phase]

/-- The weight of the new node is the sum of its children's (R116). -/
theorem State.CanMerge.weight_toNat (h : s.CanMerge a b rest k) :
    (s.weightAt a + s.weightAt b).toNat = (s.weightAt a).toNat + (s.weightAt b).toNat := by
  have := h.fits
  exact BitVec.toNat_add_of_lt (by omega)

theorem State.CanMerge.internalOk_new (h : s.CanMerge a b rest k) (hs : s.ArraysOk) (ht : s.TreeOk) :
    (s.merged a b rest k).InternalOk s.nnode.toNat := by
  have ha := h.left_lt ht
  have hb := h.right_lt ht
  constructor <;> rw [h.nodeAt_new hs]
  · rfl
  · rfl
  · rfl
  · exact (idxOf_toNat a).trans_lt ha
  · exact (idxOf_toNat b).trans_lt hb
  · simp only [parentNode, idxOf_toNat, h.nodeAt_old hs ha.ne, h.nodeAt_old hs hb.ne]
    exact h.weight_toNat

/-- The tree that PQ_INIT leaves: its counts, and its nodes, each the leaf of a present symbol (R112). -/
theorem State.queueLeaves_counts (s : State) :
    (s.queueLeaves s.present).nleaf.toNat = s.present.length ∧
      (s.queueLeaves s.present).nnode.toNat = s.present.length := by
  have := State.length_present_le (s := s)
  simp only [State.queueLeaves_nleaf, State.queueLeaves_nnode, BitVec.toNat_ofNat]
  omega

theorem State.queueLeaves_present_nodeAt (h : i < s.present.length) :
    (s.queueLeaves s.present).nodeAt i = s.leafOf s.present[i] := by
  rw [State.queueLeaves_nodeAt (State.length_present_le.trans (by decide)), dif_pos h]

theorem State.queueLeaves_present_nodeAt_of_ge (h : s.present.length ≤ i) :
    (s.queueLeaves s.present).nodeAt i = Node.zero := by
  rw [State.queueLeaves_nodeAt (State.length_present_le.trans (by decide)), dif_neg (Nat.not_lt.mpr h)]

theorem State.mem_queueLeaves_pq {j : NodeId} : j ∈ (s.queueLeaves s.present).pq ↔ j.val < s.present.length :=
  mem_firstIds (State.length_present_le.trans (by decide))

/-- The symbol of a present symbol's leaf. -/
theorem State.leafOf_sym_toNat {x : Nat} (h : x ∈ s.present) : (s.leafOf x).sym.toNat = x := by
  have := (State.mem_present.mp h).1
  simp only [State.leafOf, BitVec.toNat_ofNat]
  omega

theorem State.leafOf_ok {x : Nat} (h : x ∈ s.present) : (s.leafOf x).LeafOk :=
  ⟨rfl, rfl, (State.mem_present.mp h).2, rfl, rfl⟩

end Sys2Proof.Machine
end

section
/-! SUPPORT. Every step keeps the tree consistent (10_state.md R25 to R30, R51). -/

namespace Sys2Proof.Machine

variable {s t : State} {a b k r : NodeId} {rest : List NodeId}

theorem State.TreeOk.congr (h : SameTree s t) (hs : s.TreeOk) : t.TreeOk := by
  have hnode := State.nodeAt_congr h.node
  have hfin := State.finished_congr h.phase
  constructor
  · rw [h.nleaf]; exact hs.leafCount
  · rw [h.nleaf, h.nnode]; exact hs.leafFirst
  · rw [h.nleaf, hnode]; exact hs.leaves
  · rw [h.nleaf, hnode]; exact hs.symbols
  · rw [h.nleaf, h.nnode]
    exact fun i hi hl => (hs.internals i hi hl).congr fun j _ => congrFun hnode j
  · rw [h.nnode, hnode]; exact hs.unallocated
  · rw [h.nnode, h.pq]; exact hs.members
  · rw [h.phase, h.nleaf, h.nnode, h.pq, h.root]; exact hs.empty
  · rw [h.phase, h.nleaf, h.nnode, h.pq, h.root]; exact hs.queued
  · rw [hfin, h.nleaf, h.nnode, h.pq, h.root]; exact hs.finished

theorem State.reset_treeOk : State.reset.TreeOk where
  leafCount := Nat.zero_le _
  leafFirst := le_rfl
  leaves _ hi := absurd hi (Nat.not_lt_zero _)
  symbols _ hj := absurd hj (Nat.not_lt_zero _)
  internals _ hi := absurd hi (Nat.not_lt_zero _)
  unallocated i _ _ := State.nodeAt_nil rfl i
  members _ hi := absurd hi List.not_mem_nil
  empty _ := ⟨rfl, rfl, rfl, rfl⟩
  queued h := nomatch h
  finished h := nomatch h

theorem State.queueLeaves_treeOk (hne : s.present ≠ []) : (s.queueLeaves s.present).TreeOk := by
  obtain ⟨hnleaf, hnnode⟩ := State.queueLeaves_counts s
  have hle := State.length_present_le (s := s)
  have hpos := List.length_pos_iff.mpr hne
  constructor
  case leafCount => omega
  case leafFirst => omega
  case leaves =>
    intro i hi
    rw [hnleaf] at hi
    rw [State.queueLeaves_present_nodeAt hi]
    exact State.leafOf_ok (List.getElem_mem hi)
  case symbols =>
    intro j hj i hij
    rw [hnleaf] at hj
    rw [State.queueLeaves_present_nodeAt hj, State.queueLeaves_present_nodeAt (hij.trans hj),
      State.leafOf_sym_toNat (List.getElem_mem _), State.leafOf_sym_toNat (List.getElem_mem _)]
    exact List.pairwise_iff_getElem.mp State.pairwise_present i j (hij.trans hj) hj hij
  case internals => intro i hi hl; omega
  case unallocated => exact fun i _ hi => State.queueLeaves_present_nodeAt_of_ge (hnnode ▸ hi)
  case members => exact fun i hi => hnnode ▸ State.mem_queueLeaves_pq.mp hi
  case empty => exact fun h => nomatch h
  case queued =>
    refine fun _ => ⟨by omega, ?_, rfl, ⟨s.present.length - 1, by omega⟩, ?_, ?_⟩
    · rw [hnleaf, hnnode, State.queueLeaves_pq, length_firstIds]
      omega
    · exact State.mem_queueLeaves_pq.mpr (Nat.sub_lt hpos Nat.one_pos)
    · show s.present.length - 1 + 1 = _
      omega
  case finished => exact fun h => nomatch h

theorem State.TreeOk.merged (hs : s.ArraysOk) (ht : s.TreeOk) (h : s.CanMerge a b rest k) :
    (s.merged a b rest k).TreeOk := by
  have hnnode := h.nnode_toNat
  have hfirst := ht.leafFirst
  have old {i : Nat} (hi : i ≠ s.nnode.toNat) := h.nodeAt_old hs hi
  constructor
  case leafCount => exact ht.leafCount
  case leafFirst => rw [hnnode]; exact hfirst.trans (Nat.le_succ _)
  case leaves =>
    intro i hi
    rw [old (hi.trans_le hfirst).ne]
    exact ht.leaves i hi
  case symbols =>
    intro j hj i hij
    rw [old (hj.trans_le hfirst).ne, old ((hij.trans hj).trans_le hfirst).ne]
    exact ht.symbols j hj i hij
  case internals =>
    intro i hi hl
    rw [hnnode] at hi
    rcases Nat.lt_succ_iff_lt_or_eq.mp hi with hi | rfl
    · exact (ht.internals i hi hl).congr fun j hj => old (hj.trans_lt hi).ne
    · exact h.internalOk_new hs ht
  case unallocated =>
    intro i hi hn
    rw [hnnode] at hn
    rw [old (by omega)]
    exact ht.unallocated i hi (by omega)
  case members =>
    intro i hi
    rw [hnnode]
    rcases (h.mem_pq hs i).mp hi with ⟨hm, _⟩ | rfl
    · exact (ht.members i hm).trans (Nat.lt_succ_self _)
    · exact h.new ▸ Nat.lt_succ_self _
  case empty => exact fun hp => absurd (h.phase.symm.trans hp) (by decide)
  case queued =>
    obtain ⟨hpos, hsum, hroot, -⟩ := ht.queued h.phase
    have hlen := h.length_pq ht
    exact fun _ => ⟨hpos, by rw [hnnode, State.merged_nleaf]; omega, hroot, k, (h.mem_pq hs k).mpr (.inr rfl),
      by rw [hnnode, h.new]⟩
  case finished => exact fun hf => absurd (h.not_finished.symm.trans hf) Bool.false_ne_true

theorem State.TreeOk.rooted (ht : s.TreeOk) (hp : s.phase = .queued) (hq : s.pq = [r]) : (s.rooted r).TreeOk where
  leafCount := ht.leafCount
  leafFirst := ht.leafFirst
  leaves := ht.leaves
  symbols := ht.symbols
  internals i hi hl := (ht.internals i hi hl).congr fun _ _ => rfl
  unallocated := ht.unallocated
  members _ hi := absurd hi List.not_mem_nil
  empty h := nomatch h
  queued h := nomatch h
  finished _ := by
    obtain ⟨hpos, hsum, -, -⟩ := ht.queued hp
    obtain ⟨hlast, -⟩ := ht.of_singleton_pq hp hq
    rw [hq, List.length_singleton] at hsum
    exact ⟨hpos, hsum, rfl, (congrArg (· + 1) (idxOf_toNat r)).trans hlast⟩

theorem State.TreeOk.withCodes {m : Memory Code} (ht : s.TreeOk) (hf : s.finished = true) : (s.withCodes m).TreeOk where
  leafCount := ht.leafCount
  leafFirst := ht.leafFirst
  leaves := ht.leaves
  symbols := ht.symbols
  internals i hi hl := (ht.internals i hi hl).congr fun _ _ => rfl
  unallocated := ht.unallocated
  members := ht.members
  empty h := nomatch h
  queued h := nomatch h
  finished _ := ht.finished hf

theorem treeOk_invariant : TreeInvariant State.ArraysOk State.TreeOk where
  congr := State.TreeOk.congr
  cleared := State.reset_treeOk
  queueLeaves _ := State.queueLeaves_treeOk
  merged hs ht hm := ht.merged hs hm
  rooted _ ht hp hq := ht.rooted hp hq
  withCodes _ ht hf _ := ht.withCodes hf

/-- The arrays are canonical and the tree is consistent. -/
def State.ArenaOk (s : State) : Prop := s.ArraysOk ∧ s.TreeOk

theorem arenaOk_invariant : TreeInvariant (fun _ => True) State.ArenaOk := arraysOk_invariant.and treeOk_invariant

end Sys2Proof.Machine
end

section
/-! SUPPORT. Every step keeps the forest (10_state.md R26, 40_tree_builder.md R117). -/

namespace Sys2Proof.Machine

variable {s t : State} {a b k r : NodeId} {rest : List NodeId} {i : Nat}

theorem State.parentCount_congr (h : SameTree s t) : t.parentCount = s.parentCount := by
  funext i
  simp only [State.parentCount, State.nodeAt_congr h.node, h.nnode]

/-- A node without a parent is no allocated node's child. -/
theorem State.parentCount_eq_zero_iff : s.parentCount i = 0 ↔ ∀ j < s.nnode.toNat, ∀ d, s.child j d ≠ i := by
  simp only [State.parentCount, Nat.add_eq_zero_iff, List.countP_eq_zero, List.mem_range, beq_iff_eq, Bool.forall_bool]
  exact ⟨fun h j hj => ⟨h.1 j hj, h.2 j hj⟩, fun h => ⟨fun j hj => (h j hj).1, fun j hj => (h j hj).2⟩⟩

/-- No link names a node that is not allocated, for the links of leaves are NIL and the others lead back. -/
theorem State.TreeOk.parentCount_of_ge (h : s.TreeOk) (hi : s.nnode.toNat ≤ i) (hlt : i < 511) :
    s.parentCount i = 0 := by
  refine State.parentCount_eq_zero_iff.mpr fun j hj d => ?_
  cases htag : (s.nodeAt j).tag with
  | leaf =>
    have := h.child_of_leaf ((h.tag_eq_leaf_iff hj).mp htag) d
    omega
  | internal =>
    have := h.child_lt hj htag d
    omega

/-- Among leaves only, no node has a parent. -/
theorem State.TreeOk.parentCount_of_leaves (h : s.TreeOk) (hn : s.nnode.toNat = s.nleaf.toNat) (hi : i < 511) :
    s.parentCount i = 0 := by
  refine State.parentCount_eq_zero_iff.mpr fun j hj d => ?_
  have := h.child_of_leaf (hn ▸ hj) d
  omega

/-- The new node is the parent of its two children, and every other node has the parents it had. -/
theorem State.CanMerge.parentCount (h : s.CanMerge a b rest k) (hs : s.ArraysOk) (i : Nat) :
    (s.merged a b rest k).parentCount i =
      s.parentCount i + ((if a.val = i then 1 else 0) + (if b.val = i then 1 else 0)) := by
  have count (f : Node → Idx) :
      (List.range (s.merged a b rest k).nnode.toNat).countP (fun j => (f ((s.merged a b rest k).nodeAt j)).toNat == i) =
        (List.range s.nnode.toNat).countP (fun j => (f (s.nodeAt j)).toNat == i) +
          (if (f (parentNode (s.weightAt a + s.weightAt b) a b)).toNat = i then 1 else 0) := by
    rw [h.nnode_toNat, List.range_succ, List.countP_append, List.countP_singleton, h.nodeAt_new hs]
    congr 1
    · refine List.countP_congr fun j hj => ?_
      rw [h.nodeAt_old hs (List.mem_range.mp hj).ne]
    · simp
  have left := count Node.left
  have right := count Node.right
  simp only [parentNode, idxOf_toNat] at left right
  rw [State.parentCount, State.parentCount, left, right]
  omega

theorem State.ForestOk.merged (hs : s.ArraysOk) (ht : s.TreeOk) (hf : s.ForestOk) (h : s.CanMerge a b rest k) :
    (s.merged a b rest k).ForestOk := by
  intro i hi
  have hk := k.isLt
  have hnew := h.new
  rw [h.nnode_toNat] at hi
  obtain ⟨j, rfl⟩ : ∃ j : NodeId, j.val = i := ⟨⟨i, by omega⟩, rfl⟩
  obtain ⟨-, -, hroot, -⟩ := ht.queued h.phase
  have hnil : j.val ≠ s.root.toNat := by rw [hroot]; exact j.isLt.ne
  have hmem {q : List NodeId} : j.val ∈ q.map Fin.val ↔ j ∈ q := by simp [Fin.val_inj]
  simp only [h.parentCount hs, State.merged_root, hmem, h.mem_pq hs j]
  rcases Nat.lt_succ_iff_lt_or_eq.mp hi with hlt | heq
  · have hjk : j ≠ k := fun e => by rw [e] at hlt; omega
    have hcount := hf j.val hlt
    simp only [hmem] at hcount
    rw [hcount]
    have hne := h.ne hs
    have ha := h.left_mem
    have hb := h.right_mem
    simp only [Fin.val_inj]
    by_cases hja : a = j
    · subst hja; simp [ha, hne.symm, hnil, hjk]
    · by_cases hjb : b = j
      · subst hjb; simp [hb, hne, hnil, hjk]
      · simp [hja, hjb, Ne.symm hja, Ne.symm hjb, hnil, hjk]
  · have hjk : j = k := Fin.ext (heq.trans hnew.symm)
    have ha := h.left_lt ht
    have hb := h.right_lt ht
    rw [ht.parentCount_of_ge heq.ge j.isLt, if_neg (by omega), if_neg (by omega), if_pos (.inl (.inr hjk))]

theorem forestOk_invariant : TreeInvariant State.ArenaOk State.ForestOk where
  congr h hf := by
    rw [State.ForestOk, State.parentCount_congr h, h.nnode, h.pq, h.root]
    exact hf
  cleared _ hi := absurd hi (Nat.not_lt_zero _)
  queueLeaves s hne := by
    intro i hi
    have ht := State.queueLeaves_treeOk hne
    obtain ⟨hnleaf, hnnode⟩ := State.queueLeaves_counts s
    have hle := State.length_present_le (s := s)
    have hmem : i ∈ (s.queueLeaves s.present).pq.map Fin.val :=
      List.mem_map.mpr ⟨⟨i, by omega⟩, State.mem_queueLeaves_pq.mpr (hnnode ▸ hi), rfl⟩
    rw [ht.parentCount_of_leaves (by omega) (by omega), if_pos (.inl hmem)]
  merged hs hf hm := hf.merged hs.1 hs.2 hm
  rooted {s r} hs hf hp hq := by
    intro i hi
    have hlt := s.nnode.isLt
    have hi : i < s.nnode.toNat := hi
    obtain ⟨-, -, hroot, -⟩ := hs.2.queued hp
    have hnil : i ≠ s.root.toNat := by rw [hroot]; exact Nat.ne_of_lt (show i < 511 by omega)
    have hcount := hf i hi
    simp only [hq, List.map_singleton, List.mem_singleton, hnil, or_false] at hcount
    simp only [State.rooted, List.map_nil, List.not_mem_nil, idxOf_toNat, false_or]
    exact hcount
  withCodes _ hf _ _ := hf

end Sys2Proof.Machine
end

section
/-! SUPPORT. Every step keeps the greedy order (40_tree_builder.md R111, R113). -/

namespace Sys2Proof.Machine

variable {s t : State} {a b c d i k n : NodeId} {rest : List NodeId}

/-- Which nodes were free when node `n` was made depends on the nodes before `n` only, and so does their order. -/
theorem State.freeBefore_congr (h : ∀ j < n.val, t.nodeAt j = s.nodeAt j) : t.FreeBefore n i ↔ s.FreeBefore n i := by
  refine and_congr_right fun _ => forall₂_congr fun j hj => ?_
  rw [h j hj]

theorem State.keyLess_congr (hc : t.nodeAt c = s.nodeAt c) (hd : t.nodeAt d = s.nodeAt d) :
    t.KeyLess c d ↔ s.KeyLess c d := by
  simp only [State.KeyLess, State.weightAt, hc, hd]

/-- Node `n` joins `c` and `d` greedily: they were free when it was made, and least by key of the free nodes. -/
def State.JoinsLeast (s : State) (n c d : NodeId) : Prop :=
  s.FreeBefore n c ∧ s.FreeBefore n d ∧ c ≠ d ∧
    ∀ i, s.FreeBefore n i → i ≠ c → s.KeyLess c i ∧ (i ≠ d → s.KeyLess d i)

theorem State.JoinsLeast.congr (hj : s.JoinsLeast n c d) (h : ∀ j < n.val, t.nodeAt j = s.nodeAt j) :
    t.JoinsLeast n c d := by
  obtain ⟨hc, hd, hne, hleast⟩ := hj
  refine ⟨(State.freeBefore_congr h).mpr hc, (State.freeBefore_congr h).mpr hd, hne, fun i hi hic => ?_⟩
  have hi := (State.freeBefore_congr h).mp hi
  rw [State.keyLess_congr (h c hc.1) (h i hi.1), State.keyLess_congr (h d hd.1) (h i hi.1)]
  exact hleast i hi hic

/-- The two least nodes of the queue are what the new node joins, for the free nodes are then the queued ones. -/
theorem State.CanMerge.joinsLeast (h : s.CanMerge a b rest k) (hs : s.ArenaOk) (hf : s.ForestOk) :
    s.JoinsLeast k a b := by
  have free := State.freeBefore_next hs.2 hf h.phase h.new
  refine ⟨(free a).mpr h.left_mem, (free b).mpr h.right_mem, h.ne hs.1, fun i hi hia => ?_⟩
  have hi := (free i).mp hi
  exact ⟨h.isLeast_left.2 i hi hia, h.isLeast_right.2 i ((List.mem_erase_of_ne hia).mpr hi)⟩

theorem State.GreedyOk.merged (hs : s.ArenaOk) (hf : s.ForestOk) (hg : s.GreedyOk) (h : s.CanMerge a b rest k) :
    (s.merged a b rest k).GreedyOk := by
  intro n c d hl hn hc hd
  rw [h.nnode_toNat] at hn
  have hnew := h.new
  have old : ∀ j < n.val, (s.merged a b rest k).nodeAt j = s.nodeAt j := fun j hj => h.nodeAt_old hs.1 (by omega)
  rcases Nat.lt_succ_iff_lt_or_eq.mp hn with hlt | heq
  · rw [h.nodeAt_old hs.1 hlt.ne] at hc hd
    have join : s.JoinsLeast n c d := hg n c d hl hlt hc hd
    exact join.congr old
  · obtain rfl : n = k := Fin.ext (heq.trans hnew.symm)
    rw [heq, h.nodeAt_new hs.1] at hc hd
    obtain rfl : a = c := Fin.ext ((idxOf_toNat a).symm.trans hc)
    obtain rfl : b = d := Fin.ext ((idxOf_toNat b).symm.trans hd)
    exact (h.joinsLeast hs hf).congr old

theorem greedyOk_invariant : TreeInvariant (fun s => s.ArenaOk ∧ s.ForestOk) State.GreedyOk where
  congr {s t} h hg := by
    have hnode := State.nodeAt_congr h.node
    intro n c d hl hn hc hd
    rw [h.nleaf] at hl
    rw [h.nnode] at hn
    rw [hnode] at hc hd
    have join : s.JoinsLeast n c d := hg n c d hl hn hc hd
    exact join.congr fun j _ => congrFun hnode j
  cleared _ _ _ _ hn := absurd hn (Nat.not_lt_zero _)
  queueLeaves s _ := by
    obtain ⟨hnleaf, hnnode⟩ := State.queueLeaves_counts s
    intro n _ _ hl hn
    omega
  merged hs hg hm := hg.merged hs.1 hs.2 hm
  rooted _ hg _ _ := hg
  withCodes _ hg _ _ := hg

end Sys2Proof.Machine
end

section
/-! SUPPORT. Every step keeps the weights (10_state.md R51, 40_tree_builder.md R117). -/

namespace Sys2Proof.Machine

variable {s t : State} {a b k r : NodeId} {rest : List NodeId}

theorem State.leafTotal_congr (hl : t.nleaf = s.nleaf) (h : ∀ i < s.nleaf.toNat, t.nodeAt i = s.nodeAt i) :
    t.leafTotal = s.leafTotal := by
  rw [State.leafTotal, State.leafTotal, hl]
  refine congrArg List.sum (List.map_congr_left fun i hi => ?_)
  rw [h i (List.mem_range.mp hi)]

theorem State.queueTotal_congr (h : SameTree s t) : t.queueTotal = s.queueTotal := by
  rw [State.queueTotal, State.queueTotal, h.pq, State.weightAt_congr h.node]

theorem State.CanMerge.leafTotal (h : s.CanMerge a b rest k) (hs : s.ArenaOk) :
    (s.merged a b rest k).leafTotal = s.leafTotal :=
  State.leafTotal_congr rfl fun _ hi => h.nodeAt_old hs.1 (hi.trans_le hs.2.leafFirst).ne

/-- The sum of the two weights taken out of the queue is the weight put in. -/
theorem State.CanMerge.queueTotal (h : s.CanMerge a b rest k) (hs : s.ArenaOk) :
    (s.merged a b rest k).queueTotal = s.queueTotal := by
  have hperm := h.perm
  have hrest : ∀ i ∈ rest, i ∈ s.pq := fun i hi => hperm.mem_iff.mpr (by simp [hi])
  have hk : k ∉ rest := fun hk => h.new_not_mem hs.2 (hrest k hk)
  have hnew : ((s.merged a b rest k).weightAt k).toNat = (s.weightAt a).toNat + (s.weightAt b).toNat := by
    rw [State.weightAt, h.new, h.nodeAt_new hs.1]
    exact h.weight_toNat
  have hold : rest.map (fun i => ((s.merged a b rest k).weightAt i).toNat) = rest.map fun i => (s.weightAt i).toNat :=
    List.map_congr_left fun i hi => by
      rw [State.weightAt, h.nodeAt_old hs.1 (hs.2.members i (hrest i hi)).ne, State.weightAt]
  calc (s.merged a b rest k).queueTotal
      = ((k :: rest).map fun i => ((s.merged a b rest k).weightAt i).toNat).sum :=
        ((perm_insertId hk).map _).sum_eq
    _ = ((a :: b :: rest).map fun i => (s.weightAt i).toNat).sum := by
        simp only [List.map_cons, List.sum_cons, hold, hnew, Nat.add_assoc]
    _ = s.queueTotal := ((hperm.map _).sum_eq).symm

/-- The queued leaves are all the leaves. -/
theorem State.queueLeaves_queueTotal (s : State) :
    (s.queueLeaves s.present).queueTotal = (s.queueLeaves s.present).leafTotal := by
  have hle := State.length_present_le (s := s)
  rw [State.queueTotal, State.leafTotal, (State.queueLeaves_counts s).1, State.queueLeaves_pq, firstIds, List.map_map]
  refine congrArg List.sum (List.map_congr_left fun i hi => ?_)
  have hi := List.mem_range.mp hi
  have hval : (Fin.ofNat 511 i).val = i := Nat.mod_eq_of_lt (by omega)
  rw [Function.comp_apply, State.weightAt, hval]

theorem weightsOk_invariant : TreeInvariant State.ArenaOk State.WeightsOk where
  congr {s t} h hw := by
    have hnode := State.nodeAt_congr h.node
    have hleaf : t.leafTotal = s.leafTotal := State.leafTotal_congr h.nleaf fun i _ => congrFun hnode i
    constructor
    · rw [h.phase, State.queueTotal_congr h, hleaf]; exact hw.queued
    · rw [State.finished_congr h.phase, h.root, hnode, hleaf]; exact hw.finished
  cleared := ⟨fun h => (nomatch h), fun h => (nomatch h)⟩
  queueLeaves s _ := ⟨fun _ => State.queueLeaves_queueTotal s, fun h => (nomatch h)⟩
  merged {s a b rest k} hs hw hm := by
    constructor
    · intro hp
      rw [hm.queueTotal hs, hm.leafTotal hs]
      exact hw.queued hp
    · exact fun hf => absurd (hm.not_finished.symm.trans hf) Bool.false_ne_true
  rooted {s r} _ hw hp hq := by
    refine ⟨fun h => (nomatch h), fun _ => ?_⟩
    have htotal := hw.queued hp
    rw [State.queueTotal, hq, List.map_singleton, List.sum_singleton] at htotal
    exact (congrArg (fun i => (s.nodeAt i).weight.toNat) (idxOf_toNat r)).trans htotal
  withCodes _ hw hf _ := ⟨fun h => (nomatch h), fun _ => hw.finished hf⟩

end Sys2Proof.Machine
end

section
/-! SUPPORT. Every step keeps the code table with its tree (10_state.md R51). -/

namespace Sys2Proof.Machine

theorem codesOk_invariant : TreeInvariant (fun _ => True) State.CodesOk where
  congr h hc := by
    constructor
    · rw [h.phase, h.code, State.codeTable_congr h.node h.root]; exact hc.derived
    · rw [h.phase, h.code]; exact hc.none
  cleared := ⟨fun h => (nomatch h), fun _ => rfl⟩
  queueLeaves _ _ := ⟨fun h => (nomatch h), fun _ => rfl⟩
  merged _ hc hm := ⟨fun hp => absurd (hm.phase.symm.trans hp) (by decide), fun hp => hc.none hp⟩
  rooted _ hc hp _ := ⟨fun h => (nomatch h), fun _ => hc.none (by simp [hp])⟩
  withCodes {s m} _ _ _ hm :=
    have htable : (s.withCodes m).codeTable = s.codeTable := State.codeTable_congr rfl rfl
    ⟨fun _ => htable.trans hm, fun h => absurd rfl h⟩

end Sys2Proof.Machine
end

section
/-! CLAIMS. The invariants that every step keeps (10_state.md R51). -/

namespace Sys2Proof.Machine

/-- Settles O51: consistency is an invariant of the tree state, canonical arrays given. -/
theorem stepKeepsTheTree : Obligations.StepKeepsTheTree := fun _ _ hs ht h =>
  (arenaOk_invariant.step ⟨hs.arrays, ht⟩ h).2

/-- Settles O52: a MERGE makes the new node the one parent of two nodes that it takes out of the queue. -/
theorem stepKeepsTheForest : Obligations.StepKeepsTheForest := fun _ _ hs ht hf h =>
  ((arenaOk_invariant.and forestOk_invariant).step ⟨⟨hs.arrays, ht⟩, hf⟩ h).2

/-- Settles O53: a MERGE puts into the queue the weight that it takes out. -/
theorem stepKeepsTheWeights : Obligations.StepKeepsTheWeights := fun _ _ hs ht hw h =>
  ((arenaOk_invariant.and weightsOk_invariant).step ⟨⟨hs.arrays, ht⟩, hw⟩ h).2

/-- Settles O59: a MERGE joins the two least of the queued nodes, which are then the free ones, and what was free
when an earlier node was made does not change. -/
theorem stepKeepsTheGreedyOrder : Obligations.StepKeepsTheGreedyOrder := fun _ _ hs ht hf hg h =>
  (((arenaOk_invariant.and forestOk_invariant).and greedyOk_invariant).step ⟨⟨⟨hs.arrays, ht⟩, hf⟩, hg⟩ h).2

/-- Settles O54: GEN_CODES writes the table that the tree derives, and the rules that change the tree leave no table. -/
theorem stepKeepsTheCodeTable : Obligations.StepKeepsTheCodeTable := fun _ _ hc h => codesOk_invariant.step hc h

end Sys2Proof.Machine
end

section
/-! SUPPORT. Commands read and write the tables, and neither read nor write the control state beside them
(40_tree_builder.md R110). -/

namespace Sys2Proof.Machine

variable {s c t : State} {i : Instr} {r : CmdEnd}

/-- The tables of `s` with the control state of `c`. -/
def State.under (s c : State) : State :=
  { s with
    ie := c.ie, engine := c.engine, done := c.done, err := c.err, errCode := c.errCode, sched := c.sched,
    resp := c.resp, draws := c.draws }

/-- An end of a rule with `f` applied to the state it left. -/
def CmdEnd.map (f : State → State) : CmdEnd → CmdEnd
  | .ok s => .ok (f s)
  | .raised e s => .raised e (f s)
  | .stuck x => .stuck x

theorem CmdEnd.map_andThen {f : State → State} {g h : State → CmdEnd} (hg : ∀ u, h (f u) = (g u).map f) :
    (r.map f).andThen h = (r.andThen g).map f := by
  cases r with
  | ok u => exact hg u
  | raised e u => rfl
  | stuck x => rfl

theorem pqInitBody_under : pqInitBody (s.under c) = (pqInitBody s).map (·.under c) := by
  have hpresent : (s.under c).present = s.present := State.present_congr rfl
  unfold pqInitBody
  rw [hpresent]
  split <;> rfl

theorem mergeBody_under : mergeBody (s.under c) = (mergeBody s).map (·.under c) := by
  have hpop : (s.under c).popTwo = s.popTwo := State.popTwo_congr rfl rfl
  obtain ⟨hbad, hb⟩ | ⟨a, b, rest, hp, h2, ⟨hover, hb⟩ | ⟨hfit, ⟨k, hk, hb⟩ | ⟨hfull, hb⟩⟩⟩ := mergeBody_cases s <;>
    rw [hb]
  · exact mergeBody_of_badSequence hbad
  · exact mergeBody_of_overflow hp (hpop.trans h2) hover
  · exact mergeBody_of_fit hp (hpop.trans h2) hfit hk
  · obtain ⟨hover, _⟩ | ⟨_, ⟨k, hk, _⟩ | ⟨_, hb⟩⟩ := mergeBody_cases_of_popTwo (s := s.under c) hp (hpop.trans h2)
    · exact absurd hover (Nat.not_lt.mpr hfit)
    · exact absurd (hk.trans hfull) k.isLt.ne
    · exact hb

/-- MERGE's rule does to the tables under any control state what it does to them. -/
theorem mergeBody_eq_map (hc : s.under c = c) (h : mergeBody s = r) : mergeBody c = r.map (·.under c) := by
  have hunder := mergeBody_under (s := s) (c := c)
  rwa [hc, h] at hunder

theorem finishBody_under : finishBody (s.under c) = (finishBody s).map (·.under c) := by
  obtain ⟨hbad, hb⟩ | ⟨r, hp, hq, hb⟩ := finishBody_cases s <;> rw [hb]
  · exact finishBody_of_badSequence hbad
  · exact finishBody_of_singleton hp hq

theorem mergeLoop_under (n : Nat) : mergeLoop n (s.under c) = (mergeLoop n s).map (·.under c) := by
  induction n generalizing s with
  | zero => rfl
  | succ n ih =>
    have hq : (s.under c).pq = s.pq := rfl
    rw [mergeLoop, mergeLoop, hq, mergeBody_under]
    split
    · exact CmdEnd.map_andThen fun _ => ih
    · rfl

theorem buildBody_under : buildBody (s.under c) = (buildBody s).map (·.under c) := by
  rw [buildBody, pqInitBody_under]
  refine CmdEnd.map_andThen fun u => ?_
  have hq : (u.under c).pq = u.pq := rfl
  rw [hq, mergeLoop_under]
  exact CmdEnd.map_andThen fun _ => finishBody_under

theorem genCodesBody_under : genCodesBody (s.under c) = (genCodesBody s).map (·.under c) := by
  have htable : (s.under c).codeTable = s.codeTable := State.codeTable_congr rfl rfl
  have hfin : (s.under c).finished = s.finished := rfl
  unfold genCodesBody
  rw [htable, hfin]
  cases s.finished with
  | false => rfl
  | true =>
    cases s.codeTable with
    | ok m => rfl
    | error f => rfl

theorem bodyOf_under (i : Instr) (s c : State) : bodyOf i (s.under c) = (bodyOf i s).map (·.under c) := by
  cases i with
  | nop => rfl
  | clear => rfl
  | pqInit => exact pqInitBody_under
  | merge => exact mergeBody_under
  | finish => exact finishBody_under
  | build => exact buildBody_under
  | genCodes => exact genCodesBody_under

end Sys2Proof.Machine
end

section
/-! SUPPORT. MERGEs that take effect one after the other, and the merging loop of BUILD (40_tree_builder.md R115). -/

namespace Sys2Proof.Machine

variable {s t u : State} {a b k r : NodeId} {rest : List NodeId} {n m : Nat}

/-- `n` MERGEs that all take effect lead from `s` to `t`. -/
def Merges : Nat → State → State → Prop
  | 0, s, t => t = s
  | n + 1, s, t => ∃ u, mergeBody s = .ok u ∧ Merges n u t

theorem Merges.keeps {P : State → Prop} (hP : TreeInvariant (fun _ => True) P) (hs : P s) (h : Merges n s t) : P t := by
  induction n generalizing s with
  | zero => exact h ▸ hs
  | succ n ih =>
    obtain ⟨u, hu, h⟩ := h
    have hPu := hP.mergeBody hs
    rw [hu] at hPu
    exact ih hPu h

/-- What a run of MERGEs keeps: the phase, the leaves, the frequencies and the control state. -/
structure LeavesKept (s t : State) : Prop where
  phase : t.phase = s.phase
  nleaf : t.nleaf = s.nleaf
  leaves : ∀ i < s.nleaf.toNat, t.nodeAt i = s.nodeAt i
  freq : t.freq = s.freq
  control : t.under s = t

theorem State.CanMerge.leavesKept (h : s.CanMerge a b rest k) (hs : s.ArenaOk) :
    LeavesKept s (s.merged a b rest k) :=
  ⟨rfl, rfl, fun _ hi => h.nodeAt_old hs.1 (hi.trans_le hs.2.leafFirst).ne, rfl, rfl⟩

theorem Merges.leavesKept (hs : s.ArenaOk) (h : Merges n s t) : LeavesKept s t := by
  induction n generalizing s with
  | zero =>
    cases h
    exact ⟨rfl, rfl, fun _ _ => rfl, rfl, rfl⟩
  | succ n ih =>
    obtain ⟨u, hu, h⟩ := h
    obtain ⟨a, b, rest, k, hm, rfl⟩ := mergeBody_eq_ok.mp hu
    have first := hm.leavesKept hs
    have further := ih (arenaOk_invariant.merged trivial hs hm) h
    exact ⟨further.phase.trans first.phase, further.nleaf.trans first.nleaf,
      fun i hi => (further.leaves i hi).trans (first.leaves i hi), further.freq.trans first.freq, further.control⟩

/-- Every MERGE makes the queue one shorter. -/
theorem Merges.length_pq (hs : s.ArenaOk) (h : Merges n s t) : t.pq.length + n = s.pq.length := by
  induction n generalizing s with
  | zero => exact h ▸ rfl
  | succ n ih =>
    obtain ⟨u, hu, h⟩ := h
    obtain ⟨a, b, rest, k, hm, rfl⟩ := mergeBody_eq_ok.mp hu
    have first := hm.length_pq hs.2
    have further := ih (arenaOk_invariant.merged trivial hs hm) h
    omega

/-- A consistent tree has room for the node that a MERGE makes (R113). -/
theorem State.TreeOk.mergeBody_ne_stuck (ht : s.TreeOk) (f : Fault) : mergeBody s ≠ .stuck f := by
  obtain ⟨_, hb⟩ | ⟨a, b, rest, hp, h2, ⟨_, hb⟩ | ⟨_, ⟨k, _, hb⟩ | ⟨hfull, _⟩⟩⟩ := mergeBody_cases s
  · simp [hb]
  · simp [hb]
  · simp [hb]
  · have := ht.nnode_le_510 hp (State.two_le_of_popTwo h2)
    omega

theorem State.OverflowsNext.mergeBody_eq (h : s.OverflowsNext) : mergeBody s = .raised .weightOverflow s := by
  obtain ⟨hp, a, b, ha, hb, hover⟩ := h
  exact mergeBody_of_overflow hp (State.popTwo_of_isLeast ha hb) hover

theorem State.OverflowsNext.two_le (h : s.OverflowsNext) : 2 ≤ s.pq.length := by
  obtain ⟨-, a, b, ha, hb, -⟩ := h
  exact State.two_le_of_popTwo (State.popTwo_of_isLeast ha hb)

theorem State.OverflowsNext.congr (h : SameTree s t) (hs : s.OverflowsNext) : t.OverflowsNext := by
  obtain ⟨hp, a, b, ha, hb, hover⟩ := hs
  have hweight := State.weightAt_congr h.node
  refine ⟨h.phase.trans hp, a, b, ?_, ?_, ?_⟩
  · simpa only [State.IsLeast, State.KeyLess, h.pq, hweight] using ha
  · simpa only [State.IsLeast, State.KeyLess, h.pq, hweight] using hb
  · rwa [hweight]

/-- With two or more nodes queued, a MERGE takes effect unless their sum overflows. -/
theorem State.ArenaOk.canMerge (hs : s.ArenaOk) (hp : s.phase = .queued) (h2 : 2 ≤ s.pq.length)
    (hno : ¬ s.OverflowsNext) : ∃ a b rest k, s.CanMerge a b rest k := by
  obtain ⟨hbad, _⟩ | ⟨a, b, rest, _, hpop, ⟨hover, _⟩ | ⟨hfit, ⟨k, hk, _⟩ | ⟨_, hb⟩⟩⟩ := mergeBody_cases s
  · exact absurd hp (hbad.resolve_right (by omega))
  · obtain ⟨ha, hb, -⟩ := State.popTwo_eq_some.mp hpop
    exact absurd ⟨hp, a, b, State.isLeast_of_argminKey ha, State.isLeast_of_argminKey hb, hover⟩ hno
  · exact ⟨a, b, rest, k, hp, hpop, hfit, hk⟩
  · exact absurd hb (hs.2.mergeBody_ne_stuck _)

theorem State.TreeOk.pq_pos (ht : s.TreeOk) (hp : s.phase = .queued) : 0 < s.pq.length := by
  obtain ⟨-, -, -, i, hi, -⟩ := ht.queued hp
  exact List.length_pos_of_mem hi

/-- Where no MERGE overflows, MERGEs lead to a queue of one node. -/
theorem State.ArenaOk.exists_merges (hs : s.ArenaOk) (hp : s.phase = .queued)
    (hno : ∀ n t, Merges n s t → ¬ t.OverflowsNext) : ∃ t r, Merges (s.pq.length - 1) s t ∧ t.pq = [r] := by
  induction hn : s.pq.length - 1 generalizing s with
  | zero =>
    have hpos := hs.2.pq_pos hp
    obtain ⟨r, hr⟩ := List.length_eq_one_iff.mp (show s.pq.length = 1 by omega)
    exact ⟨s, r, rfl, hr⟩
  | succ n ih =>
    obtain ⟨a, b, rest, k, hm⟩ := hs.canMerge hp (by omega) (hno 0 s rfl)
    have hlen := hm.length_pq hs.2
    obtain ⟨t, r, ht, hr⟩ := ih (arenaOk_invariant.merged trivial hs hm) hp
      (fun m t h => hno (m + 1) t ⟨_, hm.mergeBody_eq, h⟩) (by omega)
    exact ⟨t, r, ⟨_, hm.mergeBody_eq, ht⟩, hr⟩

/-- The loop performs the MERGEs that take effect. -/
theorem Merges.mergeLoop_eq (h : Merges n s t) (m : Nat) : mergeLoop (n + m) s = mergeLoop m t := by
  induction n generalizing s with
  | zero => rw [Nat.zero_add, h]
  | succ n ih =>
    obtain ⟨u, hu, h⟩ := h
    obtain ⟨a, b, rest, k, hm, -⟩ := mergeBody_eq_ok.mp hu
    have := hm.two_le
    rw [Nat.succ_add, mergeLoop, if_pos (by omega), hu]
    exact ih h

/-- The loop ends at a MERGE that overflows. -/
theorem State.OverflowsNext.mergeLoop_eq (h : s.OverflowsNext) (hn : 0 < n) :
    mergeLoop n s = .raised .weightOverflow s := by
  obtain ⟨n, rfl⟩ := Nat.exists_eq_add_one.mpr hn
  have := h.two_le
  rw [mergeLoop, if_pos (by omega), h.mergeBody_eq]
  rfl

theorem mergeLoop_of_singleton (hr : s.pq = [r]) (n : Nat) : mergeLoop n s = .ok s := by
  cases n with
  | zero => rfl
  | succ n => rw [mergeLoop, hr, if_neg (by simp)]

theorem State.ArenaOk.mergeLoop_ne_stuck (hs : s.ArenaOk) (n : Nat) (f : Fault) : mergeLoop n s ≠ .stuck f := by
  induction n generalizing s with
  | zero => exact fun h => nomatch h
  | succ n ih =>
    intro h
    rw [mergeLoop] at h
    split at h
    · obtain h | ⟨u, hu, h⟩ := CmdEnd.andThen_eq_stuck.mp h
      · exact hs.2.mergeBody_ne_stuck f h
      · have hkept := arenaOk_invariant.mergeBody hs
        rw [hu] at hkept
        exact ih hkept h
    · cases h

end Sys2Proof.Machine
end

section
/-! SUPPORT. What BUILD of a table with a present symbol does (40_tree_builder.md R115). -/

namespace Sys2Proof.Machine

variable {s t : State} {r : NodeId} {n : Nat}

/-- The state that PQ_INIT's rule leaves in a table with a present symbol (R112). -/
def State.leavesQueued (s : State) : State := s.queueLeaves s.present

theorem State.present_ne_nil_iff : s.present ≠ [] ↔ ∃ x, x < 256 ∧ s.freqAt x ≠ 0 := by
  simp only [← State.mem_present]
  exact ⟨List.exists_mem_of_ne_nil _, fun ⟨x, hx⟩ => List.ne_nil_of_mem hx⟩

theorem pqInitBody_of_present (hne : s.present ≠ []) : pqInitBody s = .ok s.leavesQueued := by
  obtain ⟨h, _⟩ | ⟨_, h⟩ := pqInitBody_cases s
  · exact absurd h hne
  · exact h

theorem State.leavesQueued_arenaOk (hne : s.present ≠ []) : s.leavesQueued.ArenaOk :=
  arenaOk_invariant.queueLeaves s hne

theorem State.leavesQueued_length_pq : s.leavesQueued.pq.length = s.present.length := length_firstIds _

theorem State.leavesQueued_nleaf : s.leavesQueued.nleaf.toNat = s.present.length := (State.queueLeaves_counts s).1

/-- The queue that a run of MERGEs after PQ_INIT leaves. -/
theorem Merges.length_pq_of_present (hne : s.present ≠ []) (h : Merges n s.leavesQueued t) :
    t.pq.length + n = s.present.length :=
  (h.length_pq (State.leavesQueued_arenaOk hne)).trans State.leavesQueued_length_pq

theorem buildBody_of_overflow (hne : s.present ≠ []) (h : Merges n s.leavesQueued t) (hover : t.OverflowsNext) :
    buildBody s = .raised .weightOverflow t := by
  have hlen := h.length_pq (State.leavesQueued_arenaOk hne)
  have hloop := h.mergeLoop_eq t.pq.length
  have := hover.two_le
  rw [Nat.add_comm, hlen, hover.mergeLoop_eq (by omega)] at hloop
  rw [buildBody, pqInitBody_of_present hne, CmdEnd.andThen, hloop]
  rfl

theorem buildBody_of_merges (hne : s.present ≠ []) (h : Merges n s.leavesQueued t) (hr : t.pq = [r]) :
    buildBody s = .ok (t.rooted r) := by
  have hs := State.leavesQueued_arenaOk hne
  have hlen := h.length_pq hs
  have hloop := h.mergeLoop_eq t.pq.length
  rw [Nat.add_comm, hlen, mergeLoop_of_singleton hr] at hloop
  rw [buildBody, pqInitBody_of_present hne, CmdEnd.andThen, hloop]
  exact finishBody_of_singleton (h.leavesKept hs).phase hr

/-- Where no MERGE overflows, a MERGE for each leaf but one leads to a queue of one node. -/
theorem exists_merges_of_present (hne : s.present ≠ []) (hno : ∀ n t, Merges n s.leavesQueued t → ¬ t.OverflowsNext) :
    ∃ t r, Merges (s.present.length - 1) s.leavesQueued t ∧ t.pq = [r] :=
  State.leavesQueued_length_pq ▸ (State.leavesQueued_arenaOk hne).exists_merges rfl hno

/-! ### The sequence of commands -/

/-- The state after the completion of a rule that left `s` (60_exceptions.md R172). -/
def State.completed (s : State) : State := { s with engine := .idle, done := true }

theorem State.completed_sameTree (s : State) : SameTree s s.completed := ⟨rfl, rfl, rfl, rfl, rfl, rfl, rfl⟩

theorem exec_pqInit_of_present (hne : s.present ≠ []) : exec .pqInit s = .next s.leavesQueued.completed :=
  exec_eq_next.mpr (.inl ⟨_, pqInitBody_of_present hne, rfl⟩)

theorem exec_finish_of_singleton (hp : s.phase = .queued) (hr : s.pq = [r]) :
    exec .finish s = .next (s.rooted r).completed :=
  exec_eq_next.mpr (.inl ⟨s.rooted r, finishBody_of_singleton hp hr, rfl⟩)

/-- MERGE answers a completed command's state as it would the state before the completion. -/
theorem exec_merge_completed (h : mergeBody s = .ok t) (hkept : t.under s = t) :
    exec .merge s.completed = .next t.completed := by
  have hb : mergeBody s.completed = .ok (t.under s.completed) := mergeBody_eq_map rfl h
  refine exec_eq_next.mpr (.inl ⟨_, hb, ?_⟩)
  rw [← hkept]
  rfl

theorem runCommands_merges (hs : s.ArenaOk) (h : Merges n s t) (is : List Instr) :
    runCommands (List.replicate n .merge ++ is) s.completed = runCommands is t.completed := by
  induction n generalizing s with
  | zero => rw [h]; rfl
  | succ n ih =>
    obtain ⟨u, hu, h⟩ := h
    obtain ⟨a, b, rest, k, hm, rfl⟩ := mergeBody_eq_ok.mp hu
    have hx := exec_merge_completed hu (hm.leavesKept hs).control
    rw [List.replicate_succ, List.cons_append, runCommands, hx]
    exact ih (arenaOk_invariant.merged trivial hs hm) h

/-- PQ_INIT and MERGEs that take effect, as commands. -/
theorem runCommands_pqInit_merges (hne : s.present ≠ []) (h : Merges n s.leavesQueued t) (is : List Instr) :
    runCommands (.pqInit :: (List.replicate n .merge ++ is)) s = runCommands is t.completed := by
  rw [runCommands, exec_pqInit_of_present hne]
  exact runCommands_merges (State.leavesQueued_arenaOk hne) h is

theorem State.withFirstError_withFirstError (s : State) (e : ErrCode) :
    (s.withFirstError e).withFirstError e = s.withFirstError e := by
  simp [State.withFirstError]

/-- Once a MERGE has raised an error, further ones change nothing. -/
theorem runCommands_merge_of_raised {e : ErrCode} (h : mergeBody s = .raised e s) (n : Nat) :
    runCommands (List.replicate n .merge) (s.completed.withFirstError e) = .next (s.completed.withFirstError e) := by
  induction n with
  | zero => rfl
  | succ n ih =>
    have hb : mergeBody (s.completed.withFirstError e) = .raised e (s.completed.withFirstError e) :=
      mergeBody_eq_map rfl h
    have hx : exec .merge (s.completed.withFirstError e) = .next (s.completed.withFirstError e) := by
      refine exec_eq_next.mpr (.inr ⟨_, _, hb, ?_⟩)
      rw [State.withFirstError_withFirstError]
      rfl
    rw [List.replicate_succ, runCommands, hx]
    exact ih

/-- Every run of MERGE commands ends after MERGEs that took effect, or records the error of the first that did not. -/
theorem merges_of_runCommands {u : State} (hs : s.ArenaOk)
    (h : runCommands (List.replicate n .merge) s.completed = .next u) :
    ∃ m t, Merges m s t ∧ (u = t.completed ∨ ∃ e, mergeBody t = .raised e t ∧ u = t.completed.withFirstError e) := by
  induction n generalizing s with
  | zero =>
    cases h
    exact ⟨0, s, rfl, .inl rfl⟩
  | succ n ih =>
    rw [List.replicate_succ, runCommands] at h
    cases hb : mergeBody s with
    | ok v =>
      obtain ⟨a, b, rest, k, hm, rfl⟩ := mergeBody_eq_ok.mp hb
      rw [exec_merge_completed hb (hm.leavesKept hs).control] at h
      obtain ⟨m, t, ht, hu⟩ := ih (arenaOk_invariant.merged trivial hs hm) h
      exact ⟨m + 1, t, ⟨_, hb, ht⟩, hu⟩
    | raised e v =>
      obtain rfl := mergeBody_raised hb
      have hraise : mergeBody v.completed = .raised e v.completed := mergeBody_eq_map rfl hb
      have hx : exec .merge v.completed = .next (v.completed.withFirstError e) :=
        exec_eq_next.mpr (.inr ⟨_, _, hraise, rfl⟩)
      rw [hx] at h
      have h := (runCommands_merge_of_raised hb n).symm.trans h
      cases h
      exact ⟨0, v, rfl, .inr ⟨e, hb, rfl⟩⟩
    | stuck f => exact absurd hb (hs.2.mergeBody_ne_stuck f)

/-- PQ_INIT and MERGE commands, whether or not they took effect. -/
theorem merges_of_runCommands_pqInit {u : State} (hne : s.present ≠ [])
    (h : runCommands (.pqInit :: List.replicate n .merge) s = .next u) :
    ∃ m t, Merges m s.leavesQueued t ∧
      (u = t.completed ∨ ∃ e, mergeBody t = .raised e t ∧ u = t.completed.withFirstError e) := by
  rw [runCommands, exec_pqInit_of_present hne] at h
  exact merges_of_runCommands (State.leavesQueued_arenaOk hne) h

/-- Where MERGE commands have led to a state whose next MERGE overflows, the error recorded there, if they raised one, is
that overflow. -/
theorem merges_of_overflowsNext {u : State} (hne : s.present ≠ [])
    (h : runCommands (.pqInit :: List.replicate n .merge) s = .next u) (hover : u.OverflowsNext) :
    ∃ m t, Merges m s.leavesQueued t ∧ t.OverflowsNext ∧ SameTree t u ∧
      u.withFirstError .weightOverflow = t.completed.withFirstError .weightOverflow := by
  obtain ⟨m, t, ht, rfl | ⟨e, hb, rfl⟩⟩ := merges_of_runCommands_pqInit hne h
  · exact ⟨m, t, ht, hover.congr ⟨rfl, rfl, rfl, rfl, rfl, rfl, rfl⟩, t.completed_sameTree, rfl⟩
  · have hover : t.OverflowsNext := hover.congr ⟨rfl, rfl, rfl, rfl, rfl, rfl, rfl⟩
    rw [hover.mergeBody_eq] at hb
    cases hb
    exact ⟨m, t, ht, hover, ⟨rfl, rfl, rfl, rfl, rfl, rfl, rfl⟩, State.withFirstError_withFirstError _ _⟩

/-- BUILD of a table whose MERGEs do not overflow ends where its steps end. -/
theorem exec_build_of_merges (hne : s.present ≠ []) (h : Merges (s.present.length - 1) s.leavesQueued t)
    (hr : t.pq = [r]) :
    exec .build s = .next (t.rooted r).completed ∧
      runCommands (.pqInit :: (List.replicate (s.present.length - 1) .merge ++ [.finish])) s =
        .next (t.rooted r).completed := by
  have hp : t.phase = .queued := (h.leavesKept (State.leavesQueued_arenaOk hne)).phase
  refine ⟨exec_eq_next.mpr (.inl ⟨_, buildBody_of_merges hne h hr, rfl⟩), ?_⟩
  rw [runCommands_pqInit_merges hne h, runCommands, exec_finish_of_singleton (s := t.completed) hp hr]
  rfl

/-! ### The total -/

/-- The leaves that PQ_INIT queues hold the whole table. -/
theorem State.leavesQueued_leafTotal (s : State) : s.leavesQueued.leafTotal = s.freqTotal := by
  have hleaves : (List.range s.present.length).map (fun i => (s.leavesQueued.nodeAt i).weight.toNat) =
      s.present.map fun x => (s.freqAt x).toNat := by
    refine List.ext_getElem (by simp) fun i _ hi => ?_
    rw [List.length_map] at hi
    rw [List.getElem_map, List.getElem_map, List.getElem_range, State.leavesQueued, State.queueLeaves_present_nodeAt hi]
    rfl
  have hpresent : s.present.map (fun x => (s.freqAt x).toNat) =
      ((List.range 256).map fun x => (s.freqAt x).toNat).filter (· != 0) := by
    rw [List.filter_map]
    exact congrArg _ (List.filter_congr fun x _ => Bool.eq_iff_iff.mpr (by simp [← BitVec.toNat_inj]))
  rw [State.leafTotal, State.leavesQueued_nleaf, hleaves, hpresent, List.sum_filter_bne_zero, State.freqTotal]

/-- The weights of two queued nodes are at most the queue's total. -/
theorem State.OverflowsNext.lt_queueTotal (h : s.OverflowsNext) : 0xFFFFFFFF < s.queueTotal := by
  obtain ⟨-, a, b, ha, hb, hover⟩ := h
  have hperm := perm_of_popTwo (State.popTwo_of_isLeast ha hb)
  have htotal : s.queueTotal = _ := (hperm.map fun i => (s.weightAt i).toNat).sum_eq
  rw [List.map_cons, List.map_cons, List.sum_cons, List.sum_cons] at htotal
  omega

/-- A MERGE never overflows in a table whose total fits a weight (R117). -/
theorem not_overflowsNext_of_freqTotal (hne : s.present ≠ []) (hfit : s.freqTotal ≤ 0xFFFFFFFF)
    (h : Merges n s.leavesQueued t) : ¬ t.OverflowsNext := by
  intro hover
  have hkept := h.leavesKept (State.leavesQueued_arenaOk hne)
  have hinv := arenaOk_invariant.and weightsOk_invariant
  obtain ⟨-, hweights⟩ := h.keeps hinv (hinv.queueLeaves s hne)
  have hlt := hover.lt_queueTotal
  rw [hweights.queued hkept.phase, State.leafTotal_congr hkept.nleaf hkept.leaves, State.leavesQueued_leafTotal] at hlt
  omega

/-- The leaves of the queued state are the present symbols with their frequencies. -/
theorem State.leavesQueued_leaf_iff (s : State) (x : Nat) :
    (x < 256 ∧ s.freqAt x ≠ 0) ↔
      ∃ l, l < s.leavesQueued.nleaf.toNat ∧ (s.leavesQueued.nodeAt l).sym.toNat = x ∧
        (s.leavesQueued.nodeAt l).weight = s.freqAt x := by
  rw [State.leavesQueued_nleaf, ← State.mem_present]
  constructor
  · intro hx
    obtain ⟨l, hl, rfl⟩ := List.mem_iff_getElem.mp hx
    rw [State.leavesQueued]
    exact ⟨l, hl, by rw [State.queueLeaves_present_nodeAt hl, State.leafOf_sym_toNat hx],
      by rw [State.queueLeaves_present_nodeAt hl]; rfl⟩
  · rintro ⟨l, hl, hsym, -⟩
    rw [State.leavesQueued, State.queueLeaves_present_nodeAt hl, State.leafOf_sym_toNat (List.getElem_mem hl)] at hsym
    exact hsym ▸ List.getElem_mem hl

end Sys2Proof.Machine
end

section
/-! CLAIMS. The statements of BUILD (40_tree_builder.md R115 to R117). -/

namespace Sys2Proof.Machine

/-- Settles O39: the MERGE commands after PQ_INIT take effect up to the first overflow, and BUILD's loop performs the
same ones. -/
theorem buildFinishesOrStopsAtAnOverflow : Obligations.BuildFinishesOrStopsAtAnOverflow := by
  intro s hsym
  have hne := State.present_ne_nil_iff.mpr hsym
  have hs := State.leavesQueued_arenaOk hne
  refine ⟨fun m u hrun hover => ?stops, fun hno => ?finishes, fun ⟨m, u, hrun, hover⟩ => ?first⟩
  case stops =>
    obtain ⟨n, t, hmerges, hover, hsame, herr⟩ := merges_of_overflowsNext hne hrun hover
    have hkept := hmerges.leavesKept hs
    have ht := (hmerges.keeps arenaOk_invariant hs).2.congr hsame
    have hdone : t.done = s.done := (congrArg State.done hkept.control).symm
    obtain ⟨-, -, hroot, -⟩ := ht.queued (hsame.phase.trans hkept.phase)
    refine ⟨exec_eq_next.mpr (.inr ⟨_, _, buildBody_of_overflow hne hmerges hover, ?_⟩), ht, hroot⟩
    rw [herr, ← hdone]
    rfl
  case finishes =>
    have hno' : ∀ n t, Merges n s.leavesQueued t → ¬ t.OverflowsNext := fun n t hmerges hover => by
      have hrun := runCommands_pqInit_merges hne hmerges []
      rw [List.append_nil] at hrun
      exact hno n t.completed hrun (hover.congr t.completed_sameTree)
    obtain ⟨t, r, hmerges, hr⟩ := exists_merges_of_present hne hno'
    obtain ⟨hbuild, hrun⟩ := exec_build_of_merges hne hmerges hr
    have hcontrol := (hmerges.leavesKept hs).control
    exact ⟨_, hbuild, hrun, rfl, rfl, (congrArg State.err hcontrol).symm, (congrArg State.errCode hcontrol).symm⟩
  case first =>
    obtain ⟨n, t, hmerges, hover, -⟩ := merges_of_overflowsNext hne hrun hover
    have hrun := runCommands_pqInit_merges hne hmerges []
    rw [List.append_nil] at hrun
    have hkept := hmerges.leavesKept hs
    have hlen := hmerges.length_pq_of_present hne
    have htwo := hover.two_le
    obtain ⟨-, hsum, -⟩ := (hmerges.keeps arenaOk_invariant hs).2.queued hkept.phase
    have hnleaf : t.nleaf.toNat = s.present.length := by rw [hkept.nleaf, State.leavesQueued_nleaf]
    refine ⟨n, t.completed, hrun, hover.congr t.completed_sameTree, by omega, ?_,
      (congrArg State.err hkept.control).symm, (congrArg State.errCode hkept.control).symm⟩
    show t.nnode.toNat = t.nleaf.toNat + n
    omega

/-- Settles O40: no MERGE overflows where the total fits. -/
theorem buildEqualsItsSteps : Obligations.BuildEqualsItsSteps := by
  intro s hsym hfit
  have hne := State.present_ne_nil_iff.mpr hsym
  obtain ⟨t, r, hmerges, hr⟩ := exists_merges_of_present hne fun _ _ h => not_overflowsNext_of_freqTotal hne hfit h
  obtain ⟨hbuild, hrun⟩ := exec_build_of_merges hne hmerges hr
  rw [hbuild, hrun]

/-- Settles O37: BUILD establishes every invariant of the tree, and its MERGEs keep the leaves that PQ_INIT made. -/
theorem buildGivesTheHuffmanTree : Obligations.BuildGivesTheHuffmanTree := by
  intro s hsym hfit
  have hne := State.present_ne_nil_iff.mpr hsym
  obtain ⟨u, r, hmerges, hr⟩ := exists_merges_of_present hne fun _ _ h => not_overflowsNext_of_freqTotal hne hfit h
  obtain ⟨hbuild, -⟩ := exec_build_of_merges hne hmerges hr
  have hkept := hmerges.leavesKept (State.leavesQueued_arenaOk hne)
  have established {P : State → Prop} (hP : TreeInvariant (fun _ => True) P) : P (u.rooted r).completed :=
    CmdEnd.All.of_exec (i := .build) hP.congr (hP.buildBody_of_present hne) hbuild
  obtain ⟨⟨harena, hforest⟩, hgreedy⟩ := established ((arenaOk_invariant.and forestOk_invariant).and greedyOk_invariant)
  obtain ⟨-, hweights⟩ := established (arenaOk_invariant.and weightsOk_invariant)
  have hcodes := established codesOk_invariant
  refine ⟨_, hbuild, rfl, rfl, rfl, harena.2, hforest, hgreedy, ?total, fun x => ?leaves,
    State.codeAt_nil (hcodes.none fun h => nomatch h), ?frame⟩
  case total =>
    rw [hweights.finished rfl, ← State.leavesQueued_leafTotal]
    exact State.leafTotal_congr hkept.nleaf hkept.leaves
  case leaves =>
    rw [State.leavesQueued_leaf_iff, ← hkept.nleaf]
    refine exists_congr fun l => and_congr_right fun hl => ?_
    rw [← hkept.leaves l (hkept.nleaf ▸ hl)]
    rfl
  case frame =>
    have hcontrol := hkept.control
    have hfreq := hkept.freq
    rw [← hcontrol]
    show { s with freq := u.freq } = s
    rw [hfreq]
    rfl

end Sys2Proof.Machine
end

section
/-! SUPPORT. GEN_CODES on a finished tree does not stop (41_code_table_generator.md R142), and what it leaves. -/

namespace Sys2Proof.Machine

variable {s t : State} {n : Nat} {m : Memory Code}

theorem walk_of_leaf {i : Idx} {d : Nat} {p : BitVec 256} (hi : i ≠ Config.nil) (h : (s.nodeAt i.toNat).tag = .leaf) :
    walk s (n + 1) i d p m = .ok (m.write Code.zero (s.nodeAt i.toNat).sym.toNat ⟨true, BitVec.ofNat 8 d, p⟩) := by
  simp only [walk, if_neg hi, h]

theorem walk_of_internal {i : Idx} {d : Nat} {p : BitVec 256} {u : Memory Code} (hi : i ≠ Config.nil)
    (h : (s.nodeAt i.toNat).tag = .internal) (hl : walk s n (s.nodeAt i.toNat).left (d + 1) p m = .ok u) :
    walk s (n + 1) i d p m = walk s n (s.nodeAt i.toNat).right (d + 1) (p ||| (1#256 <<< d)) u := by
  simp only [walk, if_neg hi, h, hl]

/-- In a consistent tree the walk of node `i` needs an entry of the stack for each internal node up to `i`, and one for
the leaf (R142, R146). -/
theorem State.TreeOk.exists_walk (h : s.TreeOk) {i : Idx} (hi : i.toNat < s.nnode.toNat) (hpos : 0 < n)
    (hn : i.toNat + 2 ≤ n + s.nleaf.toNat) (d : Nat) (p : BitVec 256) (m : Memory Code) :
    ∃ m', walk s n i d p m = .ok m' := by
  induction n generalizing i d p m with
  | zero => omega
  | succ n ih =>
    have hnil : i ≠ Config.nil := by
      rintro rfl
      have := s.nnode.isLt
      have : (511 : Nat) < s.nnode.toNat := hi
      omega
    cases htag : (s.nodeAt i.toNat).tag with
    | leaf => exact ⟨_, walk_of_leaf hnil htag⟩
    | internal =>
      have hle := h.nleaf_le_of_internal hi htag
      obtain ⟨-, -, -, hleft, hright, -⟩ := h.internals _ hi hle
      obtain ⟨u, hu⟩ := ih (hleft.trans hi) (by omega) (by omega) (d + 1) p m
      rw [walk_of_internal hnil htag hu]
      exact ih (hright.trans hi) (by omega) (by omega) (d + 1) _ u

theorem State.TreeOk.exists_codeTable (h : s.TreeOk) (hf : s.finished = true) : ∃ m, s.codeTable = .ok m := by
  obtain ⟨_, hsum, -, hroot⟩ := h.finished hf
  have hle := h.leafCount
  exact h.exists_walk (h.root_lt hf) (by decide) (by rw [Config.walkStack]; omega) 0 0 []

theorem genCodesBody_of_codeTable (hf : s.finished = true) (hm : s.codeTable = .ok m) :
    genCodesBody s = .ok (s.withCodes m) := by
  rw [genCodesBody, if_pos hf, hm]
  rfl

theorem genCodesBody_of_unfinished (hf : s.finished = false) : genCodesBody s = .raised .badSequence s := by
  rw [genCodesBody, hf, if_neg Bool.false_ne_true]

theorem exec_genCodes_of_codeTable (hf : s.finished = true) (hm : s.codeTable = .ok m) :
    exec .genCodes s = .next (s.withCodes m).completed :=
  exec_eq_next.mpr (.inl ⟨_, genCodesBody_of_codeTable hf hm, rfl⟩)

theorem exec_genCodes_of_unfinished (hf : s.finished = false) :
    exec .genCodes s = .next { s.withFirstError .badSequence with engine := .idle } :=
  exec_eq_next.mpr (.inr ⟨_, _, genCodesBody_of_unfinished hf, rfl⟩)

/-- A path from the root of a consistent finished tree to a leaf ends in an allocated one. -/
theorem State.LeadsToSym.exists_leaf {x : Nat} {ds : List Bool} (h : s.LeadsToSym s.root.toNat ds x) (ht : s.TreeOk)
    (hf : s.finished = true) : ∃ l, l < s.nleaf.toNat ∧ (s.nodeAt l).sym.toNat = x := by
  obtain ⟨l, hl, hleaf, hsym⟩ := h
  have hlt := (ht.leads_le (ht.root_lt hf) hl).trans_lt (ht.root_lt hf)
  exact ⟨l, (ht.tag_eq_leaf_iff hlt).mp hleaf, hsym⟩

end Sys2Proof.Machine
end

section
/-! CLAIMS. The statements of GEN_CODES (41_code_table_generator.md R140 to R144). -/

namespace Sys2Proof.Machine

/-- Settles O42: the walk's stack has an entry for every internal node on a path, and one for its leaf. -/
theorem genCodesCompletesOnAFinishedTree : Obligations.GenCodesCompletesOnAFinishedTree := by
  intro s ht hp
  have hf := State.finished_iff.mpr hp
  obtain ⟨m, hm⟩ := ht.exists_codeTable hf
  have hdegen : (s.withCodes m).completed.degen = s.degen := by
    rw [State.degen, State.degen, hf]
    rfl
  exact ⟨_, exec_genCodes_of_codeTable hf hm, rfl, rfl, rfl, hdegen, rfl⟩

/-- Settles O44: the walk leaves the entry of a symbol to which no path leads as it was, and it was empty. -/
theorem symbolsOutsideTheTreeGetNoCode : Obligations.SymbolsOutsideTheTreeGetNoCode := by
  intro s t ht hf h x hx
  obtain ⟨hzero, -⟩ | ⟨ds, hds, -, -⟩ := codeAt_of_genCodes hf h x
  · exact hzero
  · obtain ⟨l, hl, hsym⟩ := hds.exists_leaf ht hf
    exact absurd hsym (hx l hl)

/-- Settles O45: the root is leaf 0, and the one path from it is empty. -/
theorem degenerateTreeHasTheEmptyCode : Obligations.DegenerateTreeHasTheEmptyCode := by
  intro s ht hf hone
  obtain ⟨-, hsum, -, hroot⟩ := ht.finished hf
  have hroot : s.root.toNat = 0 := by omega
  have hleaf : (s.nodeAt 0).tag = .leaf := (ht.leaves 0 (by omega)).tag
  have hdegen : s.degen = true := State.degen_iff.mpr ⟨State.finished_iff.mp hf, hroot ▸ hleaf⟩
  obtain ⟨t, h, -, -, -, hkept, -⟩ := genCodesCompletesOnAFinishedTree s ht (State.finished_iff.mp hf)
  have hpath : s.LeadsToSym s.root.toNat [] (s.nodeAt 0).sym.toNat :=
    hroot ▸ (State.leadsToSym_of_leaf hleaf).mpr ⟨rfl, rfl⟩
  obtain ⟨es, hes, -, hcode⟩ := exists_code_of_leadsToSym hf h hpath
  rw [hroot] at hes
  obtain ⟨rfl, -⟩ := (State.leadsToSym_of_leaf hleaf).mp hes
  exact ⟨hdegen, t, h, hkept.trans hdegen, hcode⟩

/-- Settles O47: the table depends on the arena and the root, which GEN_CODES keeps, and a first error is kept. -/
theorem genCodesIsIdempotent : Obligations.GenCodesIsIdempotent := by
  intro s t h
  cases hf : s.finished with
  | false =>
    rw [exec_genCodes_of_unfinished hf] at h
    cases h
    rw [exec_genCodes_of_unfinished (s := { s.withFirstError .badSequence with engine := .idle }) hf]
    exact congrArg (fun u : State => Host.Outcome.next { u with engine := .idle })
      (s.withFirstError_withFirstError .badSequence)
  | true =>
    obtain ⟨m, hm, rfl⟩ := exec_genCodes_of_finished hf h
    exact exec_genCodes_of_codeTable (s := (s.withCodes m).completed) rfl
      ((State.codeTable_congr (s := s) (t := (s.withCodes m).completed) rfl rfl).trans hm)

/-- Settles O41: neither phase has a finished tree. -/
theorem genCodesNeedsAFinishedTree : Obligations.GenCodesNeedsAFinishedTree := by
  refine ⟨decode_encode .genCodes, fun s hp => exec_genCodes_of_unfinished ?_⟩
  rcases hp with hp | hp <;> simp [State.finished, hp]

end Sys2Proof.Machine
end

section
/-! SUPPORT. What a command leaves of the flags (10_state.md R35, R36), and what a rule that raises an error leaves
(60_exceptions.md R173). -/

namespace Sys2Proof.Machine

variable {s t u : State} {i : Instr} {e : ErrCode}

/-- A rule that raises an error names one: NONE is no error (60_exceptions.md R170). -/
def CmdEnd.Named (r : CmdEnd) : Prop := ∀ e u, r = .raised e u → e ≠ .none

theorem CmdEnd.named_ok (s : State) : (CmdEnd.ok s).Named := fun _ _ h => nomatch h

theorem CmdEnd.Named.andThen {r : CmdEnd} {f : State → CmdEnd} (h : r.Named) (hf : ∀ u, (f u).Named) :
    (r.andThen f).Named := by
  intro e u hr
  obtain hr | ⟨v, _, hr⟩ := CmdEnd.andThen_eq_raised.mp hr
  · exact h e u hr
  · exact hf v e u hr

theorem pqInitBody_raised (h : pqInitBody s = .raised e u) : e = .emptyInput ∧ u = s := by
  obtain ⟨_, hb⟩ | ⟨_, hb⟩ := pqInitBody_cases s <;> rw [hb] at h <;> cases h
  exact ⟨rfl, rfl⟩

theorem finishBody_raised (h : finishBody s = .raised e u) : e = .badSequence ∧ u = s := by
  obtain ⟨_, hb⟩ | ⟨r, _, _, hb⟩ := finishBody_cases s <;> rw [hb] at h <;> cases h
  exact ⟨rfl, rfl⟩

theorem genCodesBody_raised (h : genCodesBody s = .raised e u) : e = .badSequence ∧ u = s := by
  obtain ⟨_, hb⟩ | ⟨_, ⟨m, _, hb⟩ | ⟨f, _, hb⟩⟩ := genCodesBody_cases s <;> rw [hb] at h <;> cases h
  exact ⟨rfl, rfl⟩

theorem mergeBody_named (s : State) : (mergeBody s).Named := by
  intro e u h
  obtain ⟨_, hb⟩ | ⟨a, b, rest, _, _, ⟨_, hb⟩ | ⟨_, ⟨k, _, hb⟩ | ⟨_, hb⟩⟩⟩ := mergeBody_cases s <;> rw [hb] at h <;>
    cases h
  · exact nofun
  · exact nofun

theorem finishBody_named (s : State) : (finishBody s).Named := fun _ _ h => (finishBody_raised h).1 ▸ nofun

theorem mergeLoop_named (n : Nat) (s : State) : (mergeLoop n s).Named := by
  induction n generalizing s with
  | zero => exact CmdEnd.named_ok s
  | succ n ih =>
    rw [mergeLoop]
    split
    · exact (mergeBody_named s).andThen fun u => ih u
    · exact CmdEnd.named_ok s

theorem bodyOf_named (i : Instr) (s : State) : (bodyOf i s).Named := by
  have init : (pqInitBody s).Named := fun _ _ h => (pqInitBody_raised h).1 ▸ nofun
  cases i with
  | nop => exact CmdEnd.named_ok s
  | clear => exact CmdEnd.named_ok s.cleared
  | pqInit => exact init
  | merge => exact mergeBody_named s
  | finish => exact finishBody_named s
  | build => exact init.andThen fun t => (mergeLoop_named _ t).andThen finishBody_named
  | genCodes => exact fun _ _ h => (genCodesBody_raised h).1 ▸ nofun

/-- No rule but BUILD's has written anything when it raises an error (R173). -/
theorem bodyOf_raised (hi : i ≠ .build) (h : bodyOf i s = .raised e u) : u = s := by
  cases i with
  | nop => cases h
  | clear => cases h
  | pqInit => exact (pqInitBody_raised h).2
  | merge => exact mergeBody_raised h
  | finish => exact (finishBody_raised h).2
  | build => exact absurd rfl hi
  | genCodes => exact (genCodesBody_raised h).2

/-- A command that answers leaves DONE set and no new error, or the error that it raised, if none was recorded. -/
theorem exec_flags_cases (h : exec i s = .next t) :
    t.engine = .idle ∧
      ((t.done = true ∧ t.err = s.err ∧ t.errCode = s.errCode) ∨
       (t.done = s.done ∧ t.err = true ∧ ∃ e, e ≠ .none ∧ t.errCode = if s.err then s.errCode else e)) := by
  have hk := bodyOf_keeps i s
  obtain ⟨u, hu, rfl⟩ | ⟨e, u, hu, rfl⟩ := exec_eq_next.mp h <;> rw [hu] at hk <;> obtain ⟨-, hk⟩ := hk
  · exact ⟨rfl, .inl ⟨rfl, hk.err, hk.errCode⟩⟩
  · refine ⟨rfl, .inr ⟨hk.done, rfl, e, bodyOf_named i s e u hu, ?_⟩⟩
    rw [← hk.err, ← hk.errCode]
    rfl

/-- The flags are consistent after a completion, whatever `done` was (R35, R36). -/
theorem exec_flagsOk (hs : s.FlagsOk) (h : exec i s = .next t) : t.FlagsOk := by
  obtain ⟨hidle, ⟨-, herr, hcode⟩ | ⟨-, herr, e, hne, hcode⟩⟩ := exec_flags_cases h
  · exact ⟨by rw [herr, hcode]; exact hs.code, by simp [State.busy, hidle]⟩
  · refine ⟨?_, by simp [State.busy, hidle]⟩
    have := hs.code
    cases hse : s.err <;> simp_all

theorem State.FlagsOk.withFirstError (hs : s.FlagsOk) (hne : e ≠ .none) : (s.withFirstError e).FlagsOk := by
  refine ⟨?_, hs.done⟩
  have := hs.code
  cases hse : s.err <;> simp_all

theorem State.FlagsOk.start (hs : s.FlagsOk) (i : Instr) : (s.start i).FlagsOk := ⟨hs.code, fun _ => rfl⟩

theorem State.FlagsOk.issue (hs : s.FlagsOk) (v : Word) : (s.issue v).FlagsOk := by
  rcases State.issue_cases s v with ⟨_, h⟩ | ⟨_, _, h⟩ | ⟨_, i, _, h⟩ <;> rw [h]
  · exact hs.withFirstError nofun
  · exact hs.withFirstError nofun
  · exact hs.start i

theorem State.FlagsOk.writeStatus (hs : s.FlagsOk) (v : Word) : (s.writeStatus v).FlagsOk := by
  rw [State.writeStatus_eq]
  constructor
  · have := hs.code
    cases hv : v.getLsbD 2 <;> simp_all
  · intro hb
    have hdone : s.done = false := hs.done hb
    simp [hdone]

theorem State.FlagsOk.hostWrite (hs : s.FlagsOk) (a : Addr) (n : Nat) (v : Word) : (s.hostWrite a n v).FlagsOk := by
  rcases State.hostWrite_cases s a n v with
    ⟨_, h⟩ | ⟨_, t, h, rfl | ⟨_, rfl⟩ | ⟨_, rfl⟩ | ⟨_, rfl⟩ | ⟨_, rfl⟩ | ⟨x, _, _, _, rfl⟩⟩ <;> rw [h]
  · exact ⟨hs.code, hs.done⟩
  · exact ⟨hs.code, hs.done⟩
  · exact ⟨hs.code, hs.done⟩
  · obtain ⟨hcode, hdone⟩ := hs.issue v
    exact ⟨hcode, hdone⟩
  · obtain ⟨hcode, hdone⟩ := hs.writeStatus v
    exact ⟨hcode, hdone⟩
  · obtain ⟨hcode, hdone⟩ := hs.withFirstError (e := .busy) nofun
    exact ⟨hcode, hdone⟩
  · exact ⟨hs.code, hs.done⟩

end Sys2Proof.Machine
end

section
/-! CLAIMS. The statements of the flags and of completion (10_state.md R35, R36; 60_exceptions.md R172 to R181). -/

namespace Sys2Proof.Machine

/-- Settles O50, by what each kind of step leaves of the flags. -/
theorem stepKeepsFlagsConsistent : Obligations.StepKeepsFlagsConsistent := by
  intro s t hs h
  rcases step_cases h with
    ⟨a, n, es, _, rfl⟩ | ⟨a, n, v, es, _, rfl⟩ | ⟨es, _, rfl⟩ | ⟨_, es, _, ⟨_, rfl⟩ | ⟨_, rfl⟩ | ⟨i, _, hx⟩⟩
  · obtain ⟨r, k, hr, -⟩ := State.hostRead_eq { s with sched := es } a n
    rw [hr]
    exact ⟨hs.code, hs.done⟩
  · exact State.FlagsOk.hostWrite (s := { s with sched := es }) ⟨hs.code, hs.done⟩ a n v
  · exact ⟨⟨fun _ => rfl, fun _ => rfl⟩, fun _ => rfl⟩
  · exact ⟨hs.code, hs.done⟩
  · exact ⟨hs.code, fun _ => rfl⟩
  · exact exec_flagsOk (s := { s with sched := es }) ⟨hs.code, hs.done⟩ hx

/-- Settles O24: a completion sets DONE or records an error. -/
theorem completionClearsBusyAndRaisesIrq : Obligations.CompletionClearsBusyAndRaisesIrq := by
  intro i s t h
  obtain ⟨hidle, hflags⟩ := exec_flags_cases h
  refine ⟨State.busy_eq_false_iff.mpr hidle, exec_ie h, ?_, exec_irq h⟩
  obtain ⟨hdone, -⟩ | ⟨-, herr, -⟩ := hflags
  · exact .inl hdone
  · exact .inr herr

/-- Settles O30: the rule has raised a named error and left the state as it was. -/
theorem raisingCommandWritesOnlyTheError : Obligations.RaisingCommandWritesOnlyTheError := by
  intro i s t hi _ h hdone
  obtain ⟨u, _, rfl⟩ | ⟨e, u, hu, rfl⟩ := exec_eq_next.mp h
  · cases hdone
  · exact ⟨e, bodyOf_named i s e u hu, by rw [bodyOf_raised hi hu]⟩

/-- Settles O20: a second error is not recorded, and only a W1C of bit 2 and reset clear the first. -/
theorem firstErrorIsKept : Obligations.FirstErrorIsKept := by
  intro s t h herr hw1c hreset
  have kept (e : ErrCode) : (if s.err then s.errCode else e) = s.errCode := if_pos herr
  rcases step_cases h with
    ⟨a, n, es, _, rfl⟩ | ⟨a, n, v, es, hs, rfl⟩ | ⟨es, hs, _⟩ | ⟨_, es, _, ⟨_, rfl⟩ | ⟨_, rfl⟩ | ⟨i, _, hx⟩⟩
  · obtain ⟨r, k, hr, -⟩ := State.hostRead_eq { s with sched := es } a n
    rw [hr]
    exact ⟨herr, rfl⟩
  · rcases State.hostWrite_cases { s with sched := es } a n v with
      ⟨_, hw⟩ | ⟨rfl, t, hw, rfl | ⟨_, rfl⟩ | ⟨_, rfl⟩ | ⟨rfl, rfl⟩ | ⟨_, rfl⟩ | ⟨x, _, _, _, rfl⟩⟩ <;> rw [hw]
    · exact ⟨herr, rfl⟩
    · exact ⟨herr, rfl⟩
    · exact ⟨herr, rfl⟩
    · rcases State.issue_cases { s with sched := es } v with ⟨_, hi⟩ | ⟨_, _, hi⟩ | ⟨_, i, _, hi⟩ <;> rw [hi]
      · exact ⟨rfl, kept _⟩
      · exact ⟨rfl, kept _⟩
      · exact ⟨herr, rfl⟩
    · have hv : v.getLsbD 2 = false := by
        by_contra hv
        exact hw1c v es (by simpa using hv) hs
      simp only [State.writeStatus_eq, hv, herr]
      exact ⟨rfl, rfl⟩
    · exact ⟨rfl, kept _⟩
    · exact ⟨herr, rfl⟩
  · exact absurd hs (hreset es)
  · exact ⟨herr, rfl⟩
  · exact ⟨herr, rfl⟩
  · obtain ⟨-, ⟨-, hterr, hcode⟩ | ⟨-, hterr, e, -, hcode⟩⟩ := exec_flags_cases hx
    · exact ⟨hterr.trans herr, hcode⟩
    · exact ⟨hterr, hcode.trans (kept e)⟩

end Sys2Proof.Machine
end

section
/-! SUPPORT. No command stops in a consistent state (60_exceptions.md R172), and the invariants of the reachable states
(10_state.md R51). -/

namespace Sys2Proof.Machine

variable {s t : State} {i : Instr}

theorem bodyOf_ne_stuck (ht : s.TreeOk) (i : Instr) (f : Fault) : bodyOf i s ≠ .stuck f := by
  have finish (u : State) : finishBody u ≠ .stuck f := by
    obtain ⟨_, hb⟩ | ⟨r, _, _, hb⟩ := finishBody_cases u <;> simp [hb]
  cases i with
  | nop => exact nofun
  | clear => exact nofun
  | pqInit => obtain ⟨_, hb⟩ | ⟨_, hb⟩ := pqInitBody_cases s <;> simp [bodyOf, hb]
  | merge => exact ht.mergeBody_ne_stuck f
  | finish => exact finish s
  | build =>
    intro h
    obtain ⟨_, hb⟩ | ⟨hne, hb⟩ := pqInitBody_cases s <;> rw [bodyOf, buildBody, hb, CmdEnd.andThen] at h
    · cases h
    · obtain h | ⟨u, _, h⟩ := CmdEnd.andThen_eq_stuck.mp h
      · exact (arenaOk_invariant.queueLeaves s hne).mergeLoop_ne_stuck _ f h
      · exact finish u h
  | genCodes =>
    obtain ⟨_, hb⟩ | ⟨hf, ⟨m, _, hb⟩ | ⟨f, hc, _⟩⟩ := genCodesBody_cases s
    · simp [bodyOf, hb]
    · simp [bodyOf, hb]
    · obtain ⟨m, hm⟩ := ht.exists_codeTable hf
      cases hc.symm.trans hm

theorem State.TreeOk.exists_exec (ht : s.TreeOk) (i : Instr) : ∃ t, exec i s = .next t := by
  rw [exec_eq]
  cases h : bodyOf i s with
  | ok u => exact ⟨_, rfl⟩
  | raised e u => exact ⟨_, rfl⟩
  | stuck f => exact absurd h (bodyOf_ne_stuck ht i f)

/-- The engine's turn is its step, the schedule after it being in the state (00_scope.md R13). -/
theorem step_of_engineMoves (h : s.EngineMoves) : ∃ es, step s = engineStep { s with sched := es } := by
  obtain hs | ⟨es, hs⟩ := h
  · have hkept : { s with sched := [] } = s := by rw [← hs]
    exact ⟨[], by rw [hkept, step, hs]⟩
  · exact ⟨es, step_of_sched hs⟩

theorem State.TreeOk.exists_engineStep (ht : s.TreeOk) : ∃ t, engineStep s = .next t := by
  unfold engineStep
  split
  · exact ⟨_, rfl⟩
  · exact ⟨_, rfl⟩
  · exact ht.exists_exec _

theorem State.reset_inv : State.reset.Inv where
  tables := ⟨Memory.wf_nil, Memory.wf_nil, Memory.wf_nil, .nil⟩
  flags := ⟨⟨fun _ => rfl, fun _ => rfl⟩, fun _ => rfl⟩
  tree := State.reset_treeOk
  forest := forestOk_invariant.cleared
  greedy := greedyOk_invariant.cleared
  weights := weightsOk_invariant.cleared
  codes := codesOk_invariant.cleared

theorem State.Inv.step (hs : s.Inv) (h : step s = .next t) : t.Inv where
  tables := stepKeepsTablesCanonical s t hs.tables h
  flags := stepKeepsFlagsConsistent s t hs.flags h
  tree := stepKeepsTheTree s t hs.tables hs.tree h
  forest := stepKeepsTheForest s t hs.tables hs.tree hs.forest h
  greedy := stepKeepsTheGreedyOrder s t hs.tables hs.tree hs.forest hs.greedy h
  weights := stepKeepsTheWeights s t hs.tables hs.tree hs.weights h
  codes := stepKeepsTheCodeTable s t hs.codes h

/-- No invariant reads the schedule. -/
theorem State.Inv.withSched (hs : s.Inv) (es : List Event) : State.Inv { s with sched := es } := by
  have same := SameTree.withSched s es
  exact
    { tables := ⟨hs.tables.freq, hs.tables.node, hs.tables.code, hs.tables.pq⟩
      flags := ⟨hs.flags.code, hs.flags.done⟩
      tree := hs.tree.congr same
      forest := forestOk_invariant.congr same hs.forest
      greedy := greedyOk_invariant.congr same hs.greedy
      weights := weightsOk_invariant.congr same hs.weights
      codes := codesOk_invariant.congr same hs.codes }

theorem Reachable.inv (h : Reachable s) : s.Inv := by
  induction h with
  | start => exact State.reset_inv
  | addEvents s es _ ih => exact ih.withSched _
  | step s t _ hst ih => exact ih.step hst

/-- In phase CODED the valid entries are those of the leaves' symbols (41_code_table_generator.md R141, R144). -/
theorem State.Inv.valid_iff (hs : s.Inv) (hp : s.phase = .coded) (x : Nat) :
    (s.codeAt x).valid = true ↔ ∃ l, l < s.nleaf.toNat ∧ (s.nodeAt l).sym.toNat = x := by
  have hf := State.finished_iff.mpr (.inr hp)
  have h := exec_genCodes_of_codeTable hf (hs.codes.derived hp)
  constructor
  · intro hx
    obtain ⟨ds, hds, -⟩ := exists_code_of_valid hf h hx
    exact hds.exists_leaf hs.tree hf
  · rintro ⟨l, hl, rfl⟩
    exact (codesAreRootToLeafPaths s _ hs.tree hs.forest hf h l hl).1

/-- In every other phase no entry is valid. -/
theorem State.CodesOk.not_valid (hs : s.CodesOk) (hp : s.phase ≠ .coded) (x : Nat) : (s.codeAt x).valid = false := by
  rw [State.codeAt_nil (hs.none hp)]
  rfl

theorem State.ForestOk.parentCount_le (hs : s.ForestOk) {i : Nat} (hi : i < s.nnode.toNat) : s.parentCount i ≤ 1 := by
  rw [hs i hi]
  split <;> decide

end Sys2Proof.Machine
end

section
/-! CLAIMS. The statements of the reachable states (10_state.md R51, 60_exceptions.md R172). -/

namespace Sys2Proof.Machine

/-- Settles O48: the cleared tables meet every invariant. -/
theorem resetMeetsEveryInvariant : Obligations.ResetMeetsEveryInvariant := State.reset_inv

/-- Settles O55: a step is an event that always answers, or the engine's of a consistent state. -/
theorem noStepStops : Obligations.NoStepStops := by
  intro s ht
  have engine (es : List Event) : ∃ t, engineStep { s with sched := es } = .next t :=
    (ht.congr (SameTree.withSched s es)).exists_engineStep
  cases hs : s.sched with
  | nil =>
    obtain ⟨es, h⟩ := step_of_engineMoves (.inl hs)
    exact h ▸ engine es
  | cons e es =>
    rw [step_of_sched hs]
    cases e with
    | read a n => exact ⟨_, rfl⟩
    | write a n v => exact ⟨_, rfl⟩
    | engine => exact engine es
    | reset => exact ⟨_, rfl⟩

/-- Settles O57: every reachable state is consistent. -/
theorem reachableStatesNeverStop : Obligations.ReachableStatesNeverStop := fun s h => noStepStops s h.inv.tree

/-- Settles O56: every reachable state meets every invariant. -/
theorem reachableIdleStatesMeetR51 : Obligations.ReachableIdleStatesMeetR51 := by
  intro s h _
  have hs := h.inv
  have hfirst := hs.tree.leafFirst
  refine ⟨fun hp => ?empty, fun hp => ?queued, fun hp => ?finished, fun hp => hs.codes.not_valid (by simp [hp]),
    fun hp => hs.valid_iff hp, fun i hl hi => hs.tree.internals i hi hl, fun i hi => hs.forest.parentCount_le hi⟩
  case empty =>
    obtain ⟨hnleaf, hnnode, hpq, hroot⟩ := hs.tree.empty hp
    exact ⟨hnleaf, hnnode, hpq, hroot, hs.codes.not_valid (by simp [hp])⟩
  case queued =>
    obtain ⟨hpos, hsum, hroot, -⟩ := hs.tree.queued hp
    have hmerged : s.nnode.toNat = s.nleaf.toNat + (s.nnode.toNat - s.nleaf.toNat) ∧
        s.pq.length + (s.nnode.toNat - s.nleaf.toNat) = s.nleaf.toNat := by omega
    exact ⟨hpos, hs.tree.leafCount, ⟨_, hmerged⟩, hs.tree.pq_pos hp, hroot, hs.codes.not_valid (by simp [hp])⟩
  case finished =>
    have hf := State.finished_iff.mpr hp
    obtain ⟨-, hsum, hpq, hroot⟩ := hs.tree.finished hf
    exact ⟨hsum, hpq, hroot, hs.weights.finished hf⟩

end Sys2Proof.Machine
end

section
/-! SUPPORT. The four bytes of a command word (20_memory.md R61, 30_encoding.md R90). -/

namespace Sys2Proof.Machine

theorem byteLane_toNat (v : Word) (b : Nat) : (byteLane v b).toNat = v.toNat / 2 ^ (8 * b) % 256 := by
  rw [byteLane, BitVec.extractLsb'_toNat, Nat.shiftRight_eq_div_pow]

theorem wordOfLanes_toNat (b0 b1 b2 b3 : Byte) :
    (wordOfLanes b0 b1 b2 b3).toNat = b0.toNat + 256 * b1.toNat + 65536 * b2.toNat + 16777216 * b3.toNat := by
  simp only [wordOfLanes, toNat_append_eq_mul_add]
  omega

/-- A word's byte lanes are the bytes it was made of. -/
theorem byteLanes_wordOfLanes (b0 b1 b2 b3 : Byte) :
    (List.range 4).map (byteLane (wordOfLanes b0 b1 b2 b3)) = [b0, b1, b2, b3] := by
  have := b0.isLt
  have := b1.isLt
  have := b2.isLt
  have := b3.isLt
  have lane (k : Nat) (b : Byte) (h : (wordOfLanes b0 b1 b2 b3).toNat / 2 ^ (8 * k) % 256 = b.toNat) :
      byteLane (wordOfLanes b0 b1 b2 b3) k = b := BitVec.eq_of_toNat_eq ((byteLane_toNat _ k).trans h)
  show [byteLane _ 0, byteLane _ 1, byteLane _ 2, byteLane _ 3] = _
  rw [lane 0 b0, lane 1 b1, lane 2 b2, lane 3 b3] <;> rw [wordOfLanes_toNat] <;> omega

theorem decodeBytes_encodeBytes (i : Instr) : decodeBytes (encodeBytes i) = .ok i := by cases i <;> rfl

/-- Only a list of four bytes decodes, and as their word does (R95). -/
theorem exists_lanes_of_decodeBytes {bs : List Byte} {i : Instr} (h : decodeBytes bs = .ok i) :
    ∃ b0 b1 b2 b3, bs = [b0, b1, b2, b3] ∧ decode (wordOfLanes b0 b1 b2 b3) = .ok i := by
  unfold decodeBytes at h
  split at h
  · exact ⟨_, _, _, _, rfl, h⟩
  · cases h

end Sys2Proof.Machine
end

section
/-! CLAIMS. The statements of the encoding (30_encoding.md R90 to R95). -/

namespace Sys2Proof.Machine

/-- Settles O1, by evaluation of the decoder on the words written out. -/
theorem commandWordsDecode : Obligations.CommandWordsDecode :=
  ⟨rfl, rfl, rfl, rfl, rfl, rfl, rfl, rfl, rfl, rfl, rfl⟩

/-- Settles O3: four bytes are the lanes of their word, and only a command's own word decodes to it. -/
theorem decodeBytesInvertsEncode : Obligations.DecodeBytesInvertsEncode := by
  intro bs i
  constructor
  · intro h
    obtain ⟨b0, b1, b2, b3, rfl, hd⟩ := exists_lanes_of_decodeBytes h
    rw [encodeBytes, ← eq_encode_of_decode hd, byteLanes_wordOfLanes]
  · rintro rfl
    exact decodeBytes_encodeBytes i

end Sys2Proof.Machine
end

section
/-! SUPPORT. Reads: what the exact words depend on, and the steps that `ReadsAs` and `DrawsAs` speak of (20_memory.md
R67, R68). -/

namespace Sys2Proof.Machine

variable {s s' : State} {a : Nat} {w w' : Word}

/-- An exact word is a word of the block. -/
theorem State.block_exactWord (s : State) (r : Region) : s.block.exactWord r = s.exactWord r := by cases r <;> rfl

theorem State.exactWord_congr (h : s'.block = s.block) (r : Region) : s'.exactWord r = s.exactWord r := by
  rw [← s'.block_exactWord, h, s.block_exactWord]

theorem State.ReadsAs.step_eq {es : List Event} (h : s.ReadsAs a w) (hs : s.sched = .read (BitVec.ofNat 15 a) 4 :: es) :
    step s = .next { s with sched := es, resp := .data w } := by
  have hx := h es
  rwa [← hs] at hx

theorem State.DrawsAs.step_eq {es : List Event} (h : s.DrawsAs a w) (hs : s.sched = .read (BitVec.ofNat 15 a) 4 :: es) :
    step s = .next { s with sched := es, resp := .data w, draws := s.draws + 1 } := by
  have hx := h es
  rwa [← hs] at hx

/-- A read draws one word. -/
theorem State.DrawsAs.unique (h : s.DrawsAs a w) (h' : s.DrawsAs a w') : w = w' := by
  have he := (h []).symm.trans (h' [])
  injection he with he
  exact Response.data.inj (congrArg State.resp he)

/-- A busy read of STATUS shows the exact word but for DEGEN and PHASE, which show the draw (R68). -/
theorem State.drawsAs_status_word (hb : s.busy = true) :
    s.DrawsAs 0x010 ((s.statusWord &&& ~~~statusDrawMask) ||| (Config.draw s.draws &&& statusDrawMask)) :=
  State.drawsAs_of (by decide) hb rfl

/-- DEGEN and PHASE show the draw. -/
theorem getLsbD_drawn_status_of_mask (v d : Word) {j : Nat} (h : statusDrawMask.getLsbD j = true) :
    ((v &&& ~~~statusDrawMask) ||| (d &&& statusDrawMask)).getLsbD j = d.getLsbD j := by
  rw [BitVec.getLsbD_or, BitVec.getLsbD_and, BitVec.getLsbD_and, BitVec.getLsbD_not, h]
  simp

/-- The mask is bits 3, 16 and 17. -/
theorem getLsbD_statusDrawMask {j : Nat} (h3 : j ≠ 3) (h16 : j ≠ 16) (h17 : j ≠ 17) :
    statusDrawMask.getLsbD j = false := by
  have low : ∀ j < 32, j ≠ 3 → j ≠ 16 → j ≠ 17 → statusDrawMask.getLsbD j = false := by decide
  by_cases hj : j < 32
  · exact low j hj h3 h16 h17
  · exact BitVec.getLsbD_of_ge _ _ (Nat.not_lt.mp hj)

/-- Two STATUS words with the same flags and error code differ in DEGEN and PHASE only (10_state.md R43). -/
theorem State.getLsbD_statusWord_congr (hb : s.busy = s'.busy) (hd : s.done = s'.done) (he : s.err = s'.err)
    (hc : s.errCode = s'.errCode) {j : Nat} (h3 : j ≠ 3) (h16 : j ≠ 16) (h17 : j ≠ 17) :
    s.statusWord.getLsbD j = s'.statusWord.getLsbD j := by
  simp only [State.statusWord, BitVec.getLsbD_append, hb, hd, he, hc]
  split_ifs with hbusy hdone herr hdegen hlow hcode hmid hphase
  · rfl
  · rfl
  · rfl
  · omega
  · rfl
  · rfl
  · rfl
  · omega
  · rfl

/-- There are eight registers. -/
theorem regionOfRegister_of_ge {n : Nat} (h : 8 ≤ n) : regionOfRegister n = .reserved := by
  obtain ⟨m, rfl⟩ := Nat.exists_eq_add_of_le' h
  rfl

/-- The reserved offsets of the map (20_memory.md R60). -/
theorem regionOf_reserved (h4 : a % 4 = 0)
    (h : (0x0020 ≤ a ∧ a < 0x0400) ∨ (0x0800 ≤ a ∧ a < 0x1000) ∨ (0x3000 ≤ a ∧ a < 0x4000)) :
    regionOf (BitVec.ofNat 15 a) = .reserved := by
  have ha : (BitVec.ofNat 15 a).toNat = a := by rw [BitVec.toNat_ofNat]; omega
  unfold regionOf
  rw [ha]
  rcases h with h | h | h
  · rw [if_pos (by omega), regionOfRegister_of_ge (by omega)]
  · rw [if_neg (by omega), if_neg (by omega), if_pos (by omega)]
  · rw [if_neg (by omega), if_neg (by omega), if_neg (by omega), if_neg (by omega), if_pos (by omega)]

/-- A place that a busy read draws whole, whatever the state (R68). -/
theorem State.drawsAs_of_region {r : Region} (hb : s.busy = true) (ha : a % 4 = 0)
    (hr : regionOf (BitVec.ofNat 15 a) = r) (hd : ∀ d, s.drawnWord d r = some d) :
    s.DrawsAs a (Config.draw s.draws) :=
  State.drawsAs_of ha hb (hr ▸ hd _)

/-- The FREQ, NODE and CODE windows are drawn while busy (R68). -/
theorem State.drawsAs_window (hb : s.busy = true) (h4 : a % 4 = 0)
    (h : (0x0400 ≤ a ∧ a < 0x0800) ∨ (0x1000 ≤ a ∧ a < 0x3000) ∨ (0x4000 ≤ a ∧ a < 0x8000)) :
    s.DrawsAs a (Config.draw s.draws) := by
  rcases h with h | h | h
  · obtain ⟨x, rfl⟩ : ∃ x, a = 0x400 + 4 * x := ⟨(a - 0x400) / 4, by omega⟩
    exact State.drawsAs_of_region hb h4 (regionOf_freq (by omega)) fun _ => rfl
  · obtain ⟨i, k, hi, hk, rfl⟩ : ∃ i k, i < 512 ∧ k < 4 ∧ a = 0x1000 + 16 * i + 4 * k :=
      ⟨(a - 0x1000) / 16, a / 4 % 4, by omega, by omega, by omega⟩
    exact State.drawsAs_of_region hb h4 (regionOf_node hi hk) fun _ => rfl
  · obtain ⟨x, k, hx, hk, rfl⟩ : ∃ x k, x < 256 ∧ k < 16 ∧ a = 0x4000 + 64 * x + 4 * k :=
      ⟨(a - 0x4000) / 64, a / 4 % 16, by omega, by omega, by omega⟩
    exact State.drawsAs_of_region hb h4 (regionOf_code hx hk) fun _ => rfl

end Sys2Proof.Machine
end

section
/-! CLAIMS. The statements of idle reads, busy reads and reserved offsets (20_memory.md R60, R65 to R68). -/

namespace Sys2Proof.Machine

/-- Settles O8: an idle read returns the exact word, which is the block's. -/
theorem idleReadIsRepeatable : Obligations.IdleReadIsRepeatable := by
  intro s a hb ha
  refine ⟨s.exactWord (regionOf a), fun s' hs => ?_⟩
  have hb' : s'.busy = false := (State.busy_congr (congrArg State.engine hs)).trans hb
  rw [← State.exactWord_congr hs]
  exact State.readsAs_of_idle hb' ha (by rw [BitVec.ofNat_toNat, BitVec.setWidth_eq])

/-- Settles O16: the reserved offsets are never drawn, and a write to one is ignored. -/
theorem reservedOffsetsReadZeroAndIgnoreWrites : Obligations.ReservedOffsetsReadZeroAndIgnoreWrites := by
  intro s a h4 h
  have hr := regionOf_reserved h4 h
  exact ⟨State.readsAs_of_undrawn (r := .reserved) (fun _ => rfl) h4 hr, fun v => State.writesTo_writeRegion v h4 hr⟩

/-- Settles O17, register by register; STATUS draws one word, and DEGEN and PHASE show its bits. -/
theorem busyReadsAreExactOrDraws : Obligations.BusyReadsAreExactOrDraws := by
  intro s hb
  refine ⟨State.readsAs_of_undrawn (r := .id) (fun _ => rfl) rfl rfl,
    State.readsAs_of_undrawn (r := .param) (fun _ => rfl) rfl rfl,
    s.ctrlWord_eq ▸ State.readsAs_of_undrawn (r := .ctrl) (fun _ => rfl) rfl rfl,
    State.readsAs_of_undrawn (r := .cmd) (fun _ => rfl) rfl rfl, ?status, fun a h4 h => ?drawn⟩
  case status =>
    obtain ⟨w, hw, hbusy, hdone, herr, hlow, hcode, hmid, htop⟩ := State.drawsAs_status hb
    obtain rfl := hw.unique (State.drawsAs_status_word hb)
    have drawn := fun j => getLsbD_drawn_status_of_mask s.statusWord (Config.draw s.draws) (j := j)
    have hphase := field_congr (i := 16) (k := 2) fun j hj =>
      drawn (16 + j) ((by decide : ∀ j < 2, statusDrawMask.getLsbD (16 + j) = true) j hj)
    exact ⟨_, hw, hbusy, hdone, herr, hcode, hlow, hmid, htop, drawn 3 rfl, hphase⟩
  case drawn =>
    rcases h with rfl | rfl | rfl | h
    · exact State.drawsAs_of_region (r := .root) hb rfl rfl fun _ => rfl
    · exact State.drawsAs_of_region (r := .counts) hb rfl rfl fun _ => rfl
    · exact State.drawsAs_of_region (r := .pqcount) hb rfl rfl fun _ => rfl
    · exact State.drawsAs_window hb h4 h

/-- Settles O18: the four exact words read `ie` alone, and the bits of STATUS but DEGEN and PHASE the flags alone. -/
theorem busyExactReadsRevealNoTable : Obligations.BusyExactReadsRevealNoTable := by
  intro s s' a es es' hb hb' hs hs' hie hdone herr hcode ha
  have exact_read {n : Nat} {r : Region} (hn : n % 4 = 0) (hr : regionOf (BitVec.ofNat 15 n) = r)
      (hd : ∀ (u : State) d, u.drawnWord d r = none) (hw : s.exactWord r = s'.exactWord r)
      (ha : a = BitVec.ofNat 15 n) :
      ∃ t t' w w', step s = .next t ∧ step s' = .next t' ∧ t.resp = .data w ∧ t'.resp = .data w' ∧
        (a ≠ 0x0010#15 → w = w') ∧ (∀ j, j ≠ 3 → j ≠ 16 → j ≠ 17 → w.getLsbD j = w'.getLsbD j) :=
    ⟨_, _, _, _, (State.readsAs_of_undrawn (hd s) hn hr).step_eq (ha ▸ hs),
      (State.readsAs_of_undrawn (hd s') hn hr).step_eq (ha ▸ hs'), rfl, rfl, fun _ => hw, fun _ _ _ _ => by rw [hw]⟩
  rcases ha with ha | ha | ha | ha | ha
  · exact exact_read (n := 0x000) (r := .id) rfl rfl (fun _ _ => rfl) rfl ha
  · exact exact_read (n := 0x004) (r := .param) rfl rfl (fun _ _ => rfl) rfl ha
  · exact exact_read (n := 0x008) (r := .ctrl) rfl rfl (fun _ _ => rfl)
      (by rw [State.exactWord, State.exactWord, State.ctrlWord_eq, State.ctrlWord_eq, hie]) ha
  · exact exact_read (n := 0x00C) (r := .cmd) rfl rfl (fun _ _ => rfl) rfl ha
  · subst ha
    refine ⟨_, _, _, _, (State.drawsAs_status_word hb).step_eq hs, (State.drawsAs_status_word hb').step_eq hs', rfl,
      rfl, fun h => absurd rfl h, fun j h3 h16 h17 => ?_⟩
    have hmask := getLsbD_statusDrawMask h3 h16 h17
    rw [getLsbD_drawn_status _ _ hmask, getLsbD_drawn_status _ _ hmask]
    exact State.getLsbD_statusWord_congr (hb.trans hb'.symm) hdone herr hcode h3 h16 h17

end Sys2Proof.Machine
end

section
/-! SUPPORT. The command in progress through host accesses (60_exceptions.md R171, R172). -/

namespace Sys2Proof.Machine

variable {s t : State} {i : Instr}

/-- `t` has the inputs of the command in progress in `s` as they were, and `done` 0. -/
structure InProgress (s t : State) : Prop where
  tree : SameTree s t
  freq : t.freq = s.freq
  engine : t.engine = s.engine
  done : t.done = false

theorem InProgress.trans {u : State} (h : InProgress s t) (h' : InProgress t u) : InProgress s u where
  tree := h.tree.trans h'.tree
  freq := h'.freq.trans h.freq
  engine := h'.engine.trans h.engine
  done := h'.done

/-- A host write to a busy block reaches the flags and `ie` only (20_memory.md R66, R77). -/
theorem State.hostWrite_inProgress (hb : s.busy = true) (hd : s.done = false) (a : Addr) (n : Nat) (v : Word) :
    InProgress s (s.hostWrite a n v) ∧ (s.hostWrite a n v).sched = s.sched := by
  have htree := State.hostWrite_sameTree s a n v
  rcases State.hostWrite_cases s a n v with
    ⟨_, h⟩ | ⟨_, t, h, rfl | ⟨_, rfl⟩ | ⟨_, rfl⟩ | ⟨_, rfl⟩ | ⟨_, rfl⟩ | ⟨x, _, _, hidle, rfl⟩⟩ <;> rw [h] at htree ⊢
  · exact ⟨⟨htree, rfl, rfl, hd⟩, rfl⟩
  · exact ⟨⟨htree, rfl, rfl, hd⟩, rfl⟩
  · exact ⟨⟨htree, rfl, rfl, hd⟩, rfl⟩
  · rw [State.issue_of_busy hb] at htree ⊢
    exact ⟨⟨htree, rfl, rfl, hd⟩, rfl⟩
  · rw [State.writeStatus_eq] at htree ⊢
    exact ⟨⟨htree, rfl, rfl, by simp [hd]⟩, rfl⟩
  · exact ⟨⟨htree, rfl, rfl, hd⟩, rfl⟩
  · simp [hb] at hidle

theorem State.hostRead_inProgress (hd : s.done = false) (a : Addr) (n : Nat) :
    InProgress s (s.hostRead a n) ∧ (s.hostRead a n).sched = s.sched := by
  have htree := State.hostRead_sameTree s a n
  obtain ⟨r, k, h, -⟩ := State.hostRead_eq s a n
  rw [h] at htree ⊢
  exact ⟨⟨htree, rfl, rfl, hd⟩, rfl⟩

/-- One host access of a busy block. -/
theorem step_of_access {e : Event} {es : List Event} (hb : s.busy = true) (hd : s.done = false)
    (hs : s.sched = e :: es) (he : e.isAccess = true) :
    ∃ t, step s = .next t ∧ InProgress s t ∧ t.sched = es := by
  have here : InProgress s { s with sched := es } := ⟨SameTree.withSched s es, rfl, rfl, hd⟩
  rw [step_of_sched hs]
  cases e with
  | read a n =>
    obtain ⟨hkept, hsched⟩ := State.hostRead_inProgress (s := { s with sched := es }) hd a n
    exact ⟨_, rfl, here.trans hkept, hsched⟩
  | write a n v =>
    obtain ⟨hkept, hsched⟩ := State.hostWrite_inProgress (s := { s with sched := es }) hb hd a n v
    exact ⟨_, rfl, here.trans hkept, hsched⟩
  | engine => cases he
  | reset => cases he

/-- Any number of host accesses of a busy block. -/
theorem steps_of_accesses {hs es : List Event} (hb : s.busy = true) (hd : s.done = false) (hsched : s.sched = hs ++ es)
    (hacc : ∀ e ∈ hs, e.isAccess = true) : ∃ u, Steps hs.length s u ∧ InProgress s u ∧ u.sched = es := by
  induction hs generalizing s with
  | nil => exact ⟨s, rfl, ⟨SameTree.refl s, rfl, rfl, hd⟩, hsched⟩
  | cons e hs ih =>
    obtain ⟨t, ht, hkept, htsched⟩ := step_of_access hb hd hsched (hacc e (by simp))
    obtain ⟨u, hu, hkept', husched⟩ := ih ((State.busy_congr hkept.engine).trans hb) hkept.done htsched
      fun e he => hacc e (by simp [he])
    exact ⟨u, ⟨t, ht, hu⟩, hkept.trans hkept', husched⟩

theorem engineStep_of_running (h : s.engine = .running i) : engineStep s = exec i s := by
  rw [engineStep, h]

theorem step_of_no_event (h : s.sched = []) : step s = engineStep s := by rw [step, h]

theorem step_of_engine_event {es : List Event} (h : s.sched = .engine :: es) :
    step s = engineStep { s with sched := es } := step_of_sched h

/-- An idle write of a command's word to CMD is its acceptance (R171). -/
theorem step_of_command {v : Word} {es : List Event} (hb : s.busy = false) (hd : decode v = .ok i)
    (hs : s.sched = .write 0x000C#15 4 v :: es) :
    step s = .next { s with done := false, engine := .running i, resp := .written, sched := es } := by
  have hw : s.WritesTo 0x00C (encode i) (s.issue (encode i)) := State.writesTo_writeRegion (r := .cmd) _ rfl rfl
  have h := hw es
  rw [State.issue_encode hb, ← eq_encode_of_decode hd] at h
  have hself : { s with sched := .write (BitVec.ofNat 15 0x00C) 4 v :: es } = s := by rw [← hs]
  rwa [hself] at h

end Sys2Proof.Machine
end

section
/-! CLAIMS. The statements of the step and the command in progress (60_exceptions.md R171, R172). -/

namespace Sys2Proof.Machine

/-- Settles O4: acceptance, then accesses that leave the command's inputs alone, then the engine's step. -/
theorem stepRunsTheDecodedCommand : Obligations.StepRunsTheDecodedCommand := by
  intro s v i hs es hb hd hacc hsched
  refine ⟨_, step_of_command hb hd hsched, rfl, ?_⟩
  obtain ⟨u, hsteps, ⟨⟨hnode, hcode, hnleaf, hnnode, hpq, hroot, hphase⟩, hfreq, hengine, hdone⟩, husched⟩ :=
    steps_of_accesses (s := { s with done := false, engine := .running i, resp := .written, sched := hs ++ es })
      rfl rfl rfl hacc
  refine ⟨u, hsteps, husched, hengine, hdone, hfreq, hnode, hnleaf, hnnode, hpq, hroot, hcode, hphase,
    fun hes => ?_, fun es' hes => ?_⟩
  · rw [step_of_no_event (husched.trans hes), engineStep_of_running hengine]
  · rw [step_of_engine_event (husched.trans hes)]
    exact engineStep_of_running hengine

/-- Settles O5: the placed command is in progress and the engine moves next. -/
theorem placedTableWordRunsNext : Obligations.PlacedTableWordRunsNext := by
  intro s nbits w i h
  rw [State.withFetchWord, h]
  cases hs : s.sched with
  | nil =>
    have hkept : { s.start i with sched := [] } = s.start i := by rw [← hs]; rfl
    exact (congrArg step hkept).trans ((step_of_no_event (s := s.start i) hs).trans (engineStep_of_running rfl))
  | cons e es =>
    have hkept : { s.start i with sched := e :: es } = s.start i := by rw [← hs]; rfl
    refine (step_of_engine_event (es := e :: es) rfl).trans ?_
    exact (engineStep_of_running (i := i) rfl).trans (congrArg (exec i) hkept)

end Sys2Proof.Machine
end

section
/-! CLAIMS. The statements of reset (70_reset_and_hazards.md R200, R201). -/

namespace Sys2Proof.Machine

/-- Settles O25: the state after reset has of the state before only the schedule and the count of draws. -/
theorem resetAbandonsEverything : Obligations.ResetAbandonsEverything := fun _ _ hs =>
  ⟨_, step_of_reset hs, rfl, rfl, rfl, rfl, rfl, rfl, rfl, rfl, rfl, fun _ _ hs' => ⟨_, step_of_reset hs', rfl⟩⟩

/-- Settles O26: the engine's step ends the clearing period. -/
theorem clearingPeriodEnds : Obligations.ClearingPeriodEnds := by
  intro s he hm
  obtain ⟨es, hstep⟩ := step_of_engineMoves hm
  have hend : engineStep { s with sched := es } = .next ({ s with sched := es }).endClearing := by
    simp only [engineStep, he]
  exact ⟨_, hstep.trans hend, rfl, State.freqAt_nil rfl, State.nodeAt_nil rfl, State.codeAt_nil rfl, rfl, rfl, rfl, rfl,
    rfl, rfl, rfl, rfl, rfl, rfl, rfl⟩

end Sys2Proof.Machine
end

section
/-! CLAIMS. The statements of the queue's search, NOP, and BUILD of an empty table (40_tree_builder.md R111, R115;
42_control.md R160). -/

namespace Sys2Proof.Machine

/-- Settles O33: the search finds a least element, of which there is at most one. -/
theorem argminKeyFindsTheLeast : Obligations.ArgminKeyFindsTheLeast := by
  intro s q
  refine ⟨fun a => ⟨State.isLeast_of_argminKey, State.argminKey_of_isLeast⟩, fun hne => ?_⟩
  obtain ⟨a, ha⟩ := State.argminKey_isSome (s := s) hne
  have hleast := State.isLeast_of_argminKey ha
  exact ⟨a, hleast, fun b hb => hb.unique hleast⟩

/-- Settles O31: NOP's rule does nothing. -/
theorem nopOnlySetsDone : Obligations.NopOnlySetsDone :=
  ⟨decode_encode .nop, fun s => exec_eq_next.mpr (.inl ⟨s, rfl, rfl⟩)⟩

/-- Settles O38: BUILD begins with PQ_INIT's rule, which finds no present symbol. -/
theorem buildOfEmptyTableRaisesEmptyInput : Obligations.BuildOfEmptyTableRaisesEmptyInput := by
  refine ⟨decode_encode .build, fun s hzero => ?_⟩
  have hnone : s.present = [] := by
    by_contra hne
    obtain ⟨x, hx, hfreq⟩ := State.present_ne_nil_iff.mp hne
    exact hfreq (hzero x hx)
  have hbuild : buildBody s = .raised .emptyInput s := by
    rw [buildBody, pqInitBody, if_pos hnone]
    rfl
  exact exec_eq_next.mpr (.inr ⟨_, _, hbuild, rfl⟩)

end Sys2Proof.Machine
end

section
/-! SUPPORT. What each command leaves of the tables (40_tree_builder.md R112 to R115, 41_code_table_generator.md R140,
42_control.md R160, R161), and what it does under another control state. -/

namespace Sys2Proof.Machine

variable {s t u v : State} {i : Instr}

/-- `u` has the tables of `s` that command `i` leaves alone. -/
structure TablesKept (i : Instr) (s u : State) : Prop where
  code : i = .nop ∨ i = .merge ∨ i = .finish → u.code = s.code
  arena : i = .nop ∨ i = .finish ∨ i = .genCodes → u.node = s.node ∧ u.nleaf = s.nleaf ∧ u.nnode = s.nnode
  queue : i = .nop ∨ i = .genCodes → u.pq = s.pq ∧ u.root = s.root
  phase : i = .nop ∨ i = .merge → u.phase = s.phase
  merge : i = .merge → u.nleaf = s.nleaf ∧ u.root = s.root

theorem TablesKept.refl (i : Instr) (s : State) : TablesKept i s s :=
  ⟨fun _ => rfl, fun _ => ⟨rfl, rfl, rfl⟩, fun _ => ⟨rfl, rfl⟩, fun _ => rfl, fun _ => ⟨rfl, rfl⟩⟩

theorem bodyOf_tablesKept (i : Instr) (s : State) : (bodyOf i s).All (TablesKept i s) := by
  cases i with
  | nop => exact TablesKept.refl .nop s
  | clear => constructor <;> simp
  | pqInit =>
    obtain ⟨_, h⟩ | ⟨_, h⟩ := pqInitBody_cases s <;> rw [bodyOf, h]
    · exact TablesKept.refl .pqInit s
    · constructor <;> simp
  | merge =>
    cases h : mergeBody s with
    | ok t =>
      obtain ⟨a, b, rest, k, -, rfl⟩ := mergeBody_eq_ok.mp h
      rw [bodyOf, h]
      exact ⟨fun _ => rfl, by simp, by simp, fun _ => rfl, fun _ => ⟨rfl, rfl⟩⟩
    | raised e t =>
      rw [bodyOf, h, mergeBody_raised h]
      exact TablesKept.refl .merge s
    | stuck f =>
      rw [bodyOf, h]
      trivial
  | finish =>
    obtain ⟨_, h⟩ | ⟨r, _, _, h⟩ := finishBody_cases s <;> rw [bodyOf, h]
    · exact TablesKept.refl .finish s
    · exact ⟨fun _ => rfl, fun _ => ⟨rfl, rfl, rfl⟩, by simp, by simp, by simp⟩
  | build =>
    cases h : bodyOf .build s with
    | ok u => constructor <;> simp
    | raised e u => constructor <;> simp
    | stuck f => trivial
  | genCodes =>
    obtain ⟨_, h⟩ | ⟨_, ⟨m, _, h⟩ | ⟨f, _, h⟩⟩ := genCodesBody_cases s <;> rw [bodyOf, h]
    · exact TablesKept.refl .genCodes s
    · exact ⟨by simp, fun _ => ⟨rfl, rfl, rfl⟩, fun _ => ⟨rfl, rfl⟩, by simp, by simp⟩
    · trivial

theorem exec_tablesKept (h : exec i s = .next t) : TablesKept i s t := by
  have hk := bodyOf_tablesKept i s
  obtain ⟨u, hu, rfl⟩ | ⟨e, u, hu, rfl⟩ := exec_eq_next.mp h <;> rw [hu] at hk <;>
    exact ⟨hk.code, hk.arena, hk.queue, hk.phase, hk.merge⟩

/-- NOP and CLEAR raise no error, and a recorded one is kept (10_state.md R36). -/
theorem exec_err_kept (h : exec i s = .next t) (hi : i = .nop ∨ i = .clear ∨ s.err = true) :
    t.err = s.err ∧ t.errCode = s.errCode := by
  obtain rfl | rfl | herr := hi
  · cases h
    exact ⟨rfl, rfl⟩
  · cases h
    exact ⟨rfl, rfl⟩
  · obtain ⟨-, ⟨-, hterr, hcode⟩ | ⟨-, hterr, e, -, hcode⟩⟩ := exec_flags_cases h
    · exact ⟨hterr, hcode⟩
    · exact ⟨hterr.trans herr.symm, hcode.trans (if_pos herr)⟩

/-- A command that sets DONE has raised no error. -/
theorem bodyOf_of_done (h : exec i s = .next t) (hs : s.done = false) (ht : t.done = true) :
    ∃ u, bodyOf i s = .ok u := by
  obtain ⟨u, hu, -⟩ | ⟨e, u, hu, rfl⟩ := exec_eq_next.mp h
  · exact ⟨u, hu⟩
  · have hk := bodyOf_keeps i s
    rw [hu] at hk
    exact absurd (ht.symm.trans (hk.2.done.trans hs)) (by decide)

/-- A command that completes without error does so under any control state. -/
theorem exec_under (h : bodyOf i s = .ok u) (c : State) : exec i (s.under c) = .next (u.under c).completed :=
  exec_eq_next.mpr (.inl ⟨u.under c, by rw [bodyOf_under, h, CmdEnd.map], rfl⟩)

/-- What a host write does to `done`: keep it, or clear it by acceptance or W1C (10_state.md R35, R43). -/
theorem State.hostWrite_done (s : State) (a : Addr) (n : Nat) (v : Word) :
    (s.hostWrite a n v).done = s.done ∨
    ((s.hostWrite a n v).done = false ∧ n = 4 ∧
      ((∃ i, s.busy = false ∧ a = 0x000C#15 ∧ v = encode i) ∨ (a = 0x0010#15 ∧ v.getLsbD 1 = true))) := by
  rcases State.hostWrite_cases s a n v with
    ⟨_, h⟩ | ⟨hn, t, h, rfl | ⟨_, rfl⟩ | ⟨ha, rfl⟩ | ⟨ha, rfl⟩ | ⟨_, rfl⟩ | ⟨x, _, _, _, rfl⟩⟩ <;> rw [h]
  · exact .inl rfl
  · exact .inl rfl
  · exact .inl rfl
  · rcases State.issue_cases s v with ⟨_, hi⟩ | ⟨_, _, hi⟩ | ⟨hb, i, hd, hi⟩ <;> rw [hi]
    · exact .inl rfl
    · exact .inl rfl
    · exact .inr ⟨rfl, hn, .inl ⟨i, hb, ha, eq_encode_of_decode hd⟩⟩
  · rw [State.writeStatus_eq]
    cases hv : v.getLsbD 1 with
    | false => exact .inl (Bool.and_true s.done)
    | true => exact .inr ⟨Bool.and_false s.done, hn, .inr ⟨ha, rfl⟩⟩
  · exact .inl rfl
  · exact .inl rfl

/-- Everything that a step can do to `done`: keep it, set it by a completion without error, or clear it. -/
theorem step_done_cases (h : step s = .next t) :
    t.done = s.done ∨
    (t.done = true ∧
      s.EngineMoves ∧ (∃ i, s.engine = .running i) ∧ t.busy = false ∧ t.err = s.err ∧ t.errCode = s.errCode) ∨
    (t.done = false ∧
      ((∃ i es, s.busy = false ∧ s.sched = .write 0x000C#15 4 (encode i) :: es) ∨
       (∃ v es, v.getLsbD 1 = true ∧ s.sched = .write 0x0010#15 4 v :: es) ∨ (∃ es, s.sched = .reset :: es) ∨
       s.engine = .clearing)) := by
  rcases step_cases h with
    ⟨a, n, es, _, rfl⟩ | ⟨a, n, v, es, hs, rfl⟩ | ⟨es, hs, rfl⟩ | ⟨hm, es, _, ⟨_, rfl⟩ | ⟨he, rfl⟩ | ⟨i, he, hx⟩⟩
  · obtain ⟨r, k, hr, -⟩ := State.hostRead_eq { s with sched := es } a n
    exact .inl (by rw [hr])
  · obtain hkept | ⟨hclear, rfl, ⟨i, hb, rfl, rfl⟩ | ⟨rfl, hv⟩⟩ := State.hostWrite_done { s with sched := es } a n v
    · exact .inl hkept
    · exact .inr (.inr ⟨hclear, .inl ⟨i, es, hb, hs⟩⟩)
    · exact .inr (.inr ⟨hclear, .inr (.inl ⟨v, es, hv, hs⟩)⟩)
  · exact .inr (.inr ⟨rfl, .inr (.inr (.inl ⟨es, hs⟩))⟩)
  · exact .inl rfl
  · exact .inr (.inr ⟨rfl, .inr (.inr (.inr he))⟩)
  · obtain ⟨hidle, ⟨hdone, herr, hcode⟩ | ⟨hdone, -⟩⟩ := exec_flags_cases hx
    · exact .inr (.inl ⟨hdone, hm, ⟨i, he⟩, State.busy_eq_false_iff.mpr hidle, herr, hcode⟩)
    · exact .inl hdone

/-- A W1C of DONE alone (10_state.md R43). -/
theorem step_w1c_done (s : State) (es : List Event) :
    step { s with sched := .write 0x0010#15 4 0x2#32 :: es } =
      .next { s with done := false, sched := es, resp := .written } := by
  have h := State.writesTo_writeRegion (s := s) (a := 0x010) (r := .status) 0x2#32 rfl rfl es
  rw [State.writeRegion, State.writeStatus_eq] at h
  simpa using h

/-- The completion of a command without error under any control state `c`. -/
theorem step_completion {c : State} (h : bodyOf i s = .ok u) (he : c.engine = .running i) (hc : s.under c = c)
    (es : List Event) :
    step { c with sched := .engine :: es } = .next (u.under { c with sched := es }).completed := by
  have hkept : s.under { c with sched := es } = { c with sched := es } :=
    congrArg (fun v : State => { v with sched := es }) hc
  have hx := exec_under h { c with sched := es }
  rw [hkept] at hx
  exact (step_of_engine_event (s := { c with sched := .engine :: es }) rfl).trans
    ((engineStep_of_running (s := { c with sched := es }) he).trans hx)

end Sys2Proof.Machine
end

section
/-! CLAIMS. The frame of the commands, and what changes `done` (40_tree_builder.md R110, 10_state.md R35,
60_exceptions.md R181). -/

namespace Sys2Proof.Machine

/-- Settles O29, by the tables that each command leaves alone and the control state that none writes. -/
theorem commandFrame : Obligations.CommandFrame := by
  intro i s t h
  obtain ⟨hcode, harena, hqueue, hphase, hmerge⟩ := exec_tablesKept h
  have hfreq : i ≠ .clear → t.freq = s.freq := fun hi => (exec_freq h).resolve_right fun hc => hi hc.1
  obtain ⟨u, hk, ht⟩ := exec_control_cases h
  obtain ⟨hsched, hresp, hdraws⟩ : t.sched = u.sched ∧ t.resp = u.resp ∧ t.draws = u.draws := by
    obtain rfl | ⟨e, rfl⟩ := ht <;> exact ⟨rfl, rfl, rfl⟩
  exact ⟨exec_ie h, hsched.trans hk.sched, hresp.trans hk.resp, hdraws.trans hk.draws, hfreq, hcode, harena, hqueue,
    hphase, hmerge, exec_err_kept h⟩

/-- Settles O28: a command that completes without error does so under any control state, so a W1C before its completion
leaves `done` to it, and one after it clears `done`. -/
theorem w1COfDoneRacesCompletionBothWays : Obligations.W1COfDoneRacesCompletionBothWays := by
  intro s i he hx hdone
  obtain ⟨t, ht, htdone⟩ := hx
  obtain ⟨u, hu⟩ := bodyOf_of_done ht hdone htdone
  constructor
  · exact ⟨_, _, step_w1c_done s [.engine],
      step_completion (c := { s with done := false, resp := .written }) hu he rfl [], rfl⟩
  · have after := step_w1c_done (u.under { s with sched := [.write 0x0010#15 4 0x2#32] }).completed []
    exact ⟨_, _, step_completion (c := s) hu he rfl _, after, rfl⟩

/-- Settles O21: a host write never sets `done`, and a busy block's `done` is 0 already. -/
theorem doneRisesAndFallsOnlyAsStated : Obligations.DoneRisesAndFallsOnlyAsStated := by
  intro s t hs h
  obtain hkept | ⟨hset, hcause⟩ | ⟨hclear, hcause⟩ := step_done_cases h
  · exact ⟨fun h0 h1 => absurd (hkept.symm.trans h1) (by simp [h0]),
      fun h1 h0 => absurd (hkept.symm.trans h0) (by simp [h1])⟩
  · exact ⟨fun _ _ => hcause, fun _ h0 => absurd (hset.symm.trans h0) (by decide)⟩
  · refine ⟨fun _ h1 => absurd (hclear.symm.trans h1) (by decide), fun h1 _ => ?_⟩
    obtain hcmd | hw1c | hreset | hclearing := hcause
    · exact .inl hcmd
    · exact .inr (.inl hw1c)
    · exact .inr (.inr hreset)
    · have h0 := hs.done (State.busy_eq_true_iff.mpr (by simp [hclearing]))
      exact absurd (h0.symm.trans h1) (by decide)

end Sys2Proof.Machine
end
